-- ==== Sys2Proof/Word.lean ====
section
/-! DEFINITION. The word types of the CORE block and their plainest arithmetic (spec/00_scope.md R12, R14;
spec/30_encoding.md R71). Every value is unsigned (R12). -/

namespace Sys2Proof

/-- An 8-bit value: a general register, a timer, an immediate `kk`, a memory byte. -/
abbrev Byte := BitVec 8

/-- A 16-bit value: an instruction word, `I`, `PC`, a stack slot. -/
abbrev Word := BitVec 16

/-- A 12-bit immediate address `nnn`. -/
abbrev Addr := BitVec 12

/-- A 4-bit value: a register index `x` or `y`, a sprite height `n`, a virtual key. -/
abbrev Nibble := BitVec 4

/-- The register index of `VF`, the flag register (R22). -/
abbrev regF : Nibble := 0xF#4

end Sys2Proof
end

