-- ==== Sys2Proof/Syntax.lean ====
section
/-! DEFINITION. The 34 instructions of spec/30_encoding.md R74, one constructor for each row of the opcode map, in the
map's order. Each operand has the width of its field (R71), so every value a field can hold is an operand and no other is. -/

namespace Sys2Proof

/-- One instruction. The comment of a constructor is its pattern and the rule that gives its meaning. -/
inductive Instr where
  /-- `00E0` CLS (R140). -/
  | cls
  /-- `00EE` RET (R101). -/
  | ret
  /-- `1nnn` JP nnn (R102). -/
  | jp (nnn : Addr)
  /-- `2nnn` CALL nnn (R103). -/
  | call (nnn : Addr)
  /-- `3xkk` SE Vx, kk (R104). -/
  | seVxKk (x : Nibble) (kk : Byte)
  /-- `4xkk` SNE Vx, kk (R105). -/
  | sneVxKk (x : Nibble) (kk : Byte)
  /-- `5xy0` SE Vx, Vy (R106). -/
  | seVxVy (x y : Nibble)
  /-- `6xkk` LD Vx, kk (R121). -/
  | ldVxKk (x : Nibble) (kk : Byte)
  /-- `7xkk` ADD Vx, kk (R122). -/
  | addVxKk (x : Nibble) (kk : Byte)
  /-- `8xy0` LD Vx, Vy (R123). -/
  | ldVxVy (x y : Nibble)
  /-- `8xy1` OR Vx, Vy (R124). -/
  | or (x y : Nibble)
  /-- `8xy2` AND Vx, Vy (R125). -/
  | and (x y : Nibble)
  /-- `8xy3` XOR Vx, Vy (R126). -/
  | xor (x y : Nibble)
  /-- `8xy4` ADD Vx, Vy (R127). -/
  | addVxVy (x y : Nibble)
  /-- `8xy5` SUB Vx, Vy (R128). -/
  | sub (x y : Nibble)
  /-- `8xy6` SHR Vx, Vy; y is encoded and not read (R129). -/
  | shr (x y : Nibble)
  /-- `8xy7` SUBN Vx, Vy (R130). -/
  | subn (x y : Nibble)
  /-- `8xyE` SHL Vx, Vy; y is encoded and not read (R131). -/
  | shl (x y : Nibble)
  /-- `9xy0` SNE Vx, Vy (R107). -/
  | sneVxVy (x y : Nibble)
  /-- `Annn` LD I, nnn (R160). -/
  | ldINnn (nnn : Addr)
  /-- `Bnnn` JP V0, nnn (R108). -/
  | jpV0Nnn (nnn : Addr)
  /-- `Cxkk` RND Vx, kk (R132). -/
  | rnd (x : Nibble) (kk : Byte)
  /-- `Dxyn` DRW Vx, Vy, n (R144). -/
  | drw (x y n : Nibble)
  /-- `Ex9E` SKP Vx (R151). -/
  | skp (x : Nibble)
  /-- `ExA1` SKNP Vx (R152). -/
  | sknp (x : Nibble)
  /-- `Fx07` LD Vx, DT (R153). -/
  | ldVxDt (x : Nibble)
  /-- `Fx0A` LD Vx, K (R154). -/
  | ldVxK (x : Nibble)
  /-- `Fx15` LD DT, Vx (R155). -/
  | ldDtVx (x : Nibble)
  /-- `Fx18` LD ST, Vx (R156). -/
  | ldStVx (x : Nibble)
  /-- `Fx1E` ADD I, Vx (R161). -/
  | addIVx (x : Nibble)
  /-- `Fx29` LD F, Vx (R162). -/
  | ldFVx (x : Nibble)
  /-- `Fx33` LD B, Vx (R163). -/
  | ldBVx (x : Nibble)
  /-- `Fx55` LD [I], Vx (R164). -/
  | ldMIVx (x : Nibble)
  /-- `Fx65` LD Vx, [I] (R165). -/
  | ldVxMI (x : Nibble)
  deriving DecidableEq, Repr

end Sys2Proof
end

