-- ==== Sys2Proof/WellFormed.lean ====
section
/-! DEFINITION. The opcode map of spec/30_encoding.md R74 as data, and the checks on it: a word is well formed when a row
selects it, a row when its match lies inside its mask, a table when no word can match two rows (R74, R75). A term of
`Instr` needs no check of its own: its operands have the widths of their fields (R71, R75). -/

namespace Sys2Proof

/-- A row of the opcode map: its name in spec/opcode_table.json, which bits are fixed, and their values (R74). -/
structure Row where
  mnemonic : String
  mask     : Word
  value    : Word
  deriving DecidableEq, Repr

/-- "A word selects a row when `w & mask = match`" (R74). -/
def Row.selects (r : Row) (w : Word) : Bool := w &&& r.mask == r.value

/-- The row of the opcode map an instruction stands in (R74). -/
def Instr.row : Instr → Row
  | .cls         => ⟨"CLS", 0xFFFF#16, 0x00E0#16⟩
  | .ret         => ⟨"RET", 0xFFFF#16, 0x00EE#16⟩
  | .jp _        => ⟨"JP", 0xF000#16, 0x1000#16⟩
  | .call _      => ⟨"CALL", 0xF000#16, 0x2000#16⟩
  | .seVxKk _ _  => ⟨"SE_Vx_kk", 0xF000#16, 0x3000#16⟩
  | .sneVxKk _ _ => ⟨"SNE_Vx_kk", 0xF000#16, 0x4000#16⟩
  | .seVxVy _ _  => ⟨"SE_Vx_Vy", 0xF00F#16, 0x5000#16⟩
  | .ldVxKk _ _  => ⟨"LD_Vx_kk", 0xF000#16, 0x6000#16⟩
  | .addVxKk _ _ => ⟨"ADD_Vx_kk", 0xF000#16, 0x7000#16⟩
  | .ldVxVy _ _  => ⟨"LD_Vx_Vy", 0xF00F#16, 0x8000#16⟩
  | .or _ _      => ⟨"OR", 0xF00F#16, 0x8001#16⟩
  | .and _ _     => ⟨"AND", 0xF00F#16, 0x8002#16⟩
  | .xor _ _     => ⟨"XOR", 0xF00F#16, 0x8003#16⟩
  | .addVxVy _ _ => ⟨"ADD_Vx_Vy", 0xF00F#16, 0x8004#16⟩
  | .sub _ _     => ⟨"SUB", 0xF00F#16, 0x8005#16⟩
  | .shr _ _     => ⟨"SHR", 0xF00F#16, 0x8006#16⟩
  | .subn _ _    => ⟨"SUBN", 0xF00F#16, 0x8007#16⟩
  | .shl _ _     => ⟨"SHL", 0xF00F#16, 0x800E#16⟩
  | .sneVxVy _ _ => ⟨"SNE_Vx_Vy", 0xF00F#16, 0x9000#16⟩
  | .ldINnn _    => ⟨"LD_I_nnn", 0xF000#16, 0xA000#16⟩
  | .jpV0Nnn _   => ⟨"JP_V0_nnn", 0xF000#16, 0xB000#16⟩
  | .rnd _ _     => ⟨"RND", 0xF000#16, 0xC000#16⟩
  | .drw _ _ _   => ⟨"DRW", 0xF000#16, 0xD000#16⟩
  | .skp _       => ⟨"SKP", 0xF0FF#16, 0xE09E#16⟩
  | .sknp _      => ⟨"SKNP", 0xF0FF#16, 0xE0A1#16⟩
  | .ldVxDt _    => ⟨"LD_Vx_DT", 0xF0FF#16, 0xF007#16⟩
  | .ldVxK _     => ⟨"LD_Vx_K", 0xF0FF#16, 0xF00A#16⟩
  | .ldDtVx _    => ⟨"LD_DT_Vx", 0xF0FF#16, 0xF015#16⟩
  | .ldStVx _    => ⟨"LD_ST_Vx", 0xF0FF#16, 0xF018#16⟩
  | .addIVx _    => ⟨"ADD_I_Vx", 0xF0FF#16, 0xF01E#16⟩
  | .ldFVx _     => ⟨"LD_F_Vx", 0xF0FF#16, 0xF029#16⟩
  | .ldBVx _     => ⟨"LD_B_Vx", 0xF0FF#16, 0xF033#16⟩
  | .ldMIVx _    => ⟨"LD_mI_Vx", 0xF0FF#16, 0xF055#16⟩
  | .ldVxMI _    => ⟨"LD_Vx_mI", 0xF0FF#16, 0xF065#16⟩

/-- The 34 rows, each taken from an instruction of that row; a row does not depend on the operands. -/
def opcodeTable : List Row :=
  let first  : List Instr := [.cls, .ret, .jp 0, .call 0, .seVxKk 0 0, .sneVxKk 0 0, .seVxVy 0 0, .ldVxKk 0 0, .addVxKk 0 0]
  let eight  : List Instr := [.ldVxVy 0 0, .or 0 0, .and 0 0, .xor 0 0, .addVxVy 0 0, .sub 0 0, .shr 0 0, .subn 0 0, .shl 0 0]
  let middle : List Instr := [.sneVxVy 0 0, .ldINnn 0, .jpV0Nnn 0, .rnd 0 0, .drw 0 0 0, .skp 0, .sknp 0]
  let last   : List Instr := [.ldVxDt 0, .ldVxK 0, .ldDtVx 0, .ldStVx 0, .addIVx 0, .ldFVx 0, .ldBVx 0, .ldMIVx 0, .ldVxMI 0]
  (first ++ eight ++ middle ++ last).map Instr.row

/-- A word is an instruction when some row of the opcode map selects it (R74, R75). -/
def wellFormedWord (w : Word) : Bool := opcodeTable.any (·.selects w)

/-- A row fixes no bit outside its mask. -/
def Row.wellFormed (r : Row) : Bool := r.value &&& ~~~r.mask == 0#16

/-- Two rows differ in a bit that both of them fix. -/
def Row.apart (r q : Row) : Bool := (r.value ^^^ q.value) &&& (r.mask &&& q.mask) != 0#16

/-- "No word matches two rows" (R74), as a check on the table. -/
def wellFormedTable : List Row → Bool
  | []      => true
  | r :: rs => r.wellFormed && rs.all (r.apart ·) && wellFormedTable rs

end Sys2Proof
end

