-- ==== Sys2Proof/Decode.lean ====
section
/-! DEFINITION. The decoder, total on any bytes, and after it the encoder (spec/30_encoding.md R70 to R76). -/

namespace Sys2Proof

/-! ### Fields of a word (R71) -/

/-- `op`, bits 15:12. -/
def opField (w : Word) : Nibble := w.extractLsb' 12 4

/-- `x`, bits 11:8. -/
def xField (w : Word) : Nibble := w.extractLsb' 8 4

/-- `y`, bits 7:4. -/
def yField (w : Word) : Nibble := w.extractLsb' 4 4

/-- `n`, bits 3:0. -/
def nField (w : Word) : Nibble := w.extractLsb' 0 4

/-- `kk`, bits 7:0. -/
def kkField (w : Word) : Byte := w.extractLsb' 0 8

/-- `nnn`, bits 11:0. -/
def nnnField (w : Word) : Addr := w.extractLsb' 0 12

/-! ### Decoding -/

/-- Why the decoder gives no instruction: too few bytes, or an unallocated word, by its space in R76's table. Safe:
`cycle` runs an unallocated word as the no-op R76 says it is. -/
inductive DecodeReject where
  /-- Fewer than two bytes were offered: no fetch ever offers so few (R70). -/
  | truncated
  /-- `0nnn`, neither 00E0 nor 00EE. -/
  | unallocated0 (w : Word)
  /-- `5xyN` with N not 0. -/
  | unallocated5 (w : Word)
  /-- `8xyN` with N one of 8, 9, A, B, C, D, F. -/
  | unallocated8 (w : Word)
  /-- `9xyN` with N not 0. -/
  | unallocated9 (w : Word)
  /-- `ExNN` with NN neither 9E nor A1. -/
  | unallocatedE (w : Word)
  /-- `FxNN` with NN none of 07, 0A, 15, 18, 1E, 29, 33, 55, 65. -/
  | unallocatedF (w : Word)
  deriving DecidableEq, Repr

/-- Family 0: the whole word must match (R75). -/
def decodeFamily0 (w : Word) : Except DecodeReject Instr :=
  if kkField w = 0xE0#8 ∧ xField w = 0#4 then .ok .cls
  else if kkField w = 0xEE#8 ∧ xField w = 0#4 then .ok .ret
  else .error (.unallocated0 w)

/-- Family 5: the low nibble must be 0 (R75). -/
def decodeFamily5 (w : Word) : Except DecodeReject Instr :=
  if nField w = 0#4 then .ok (.seVxVy (xField w) (yField w)) else .error (.unallocated5 w)

/-- Family 8: the low nibble names the operation (R74, R75). -/
def decodeFamily8 (w : Word) : Except DecodeReject Instr :=
  if nField w = 0x0#4 then .ok (.ldVxVy (xField w) (yField w))
  else if nField w = 0x1#4 then .ok (.or (xField w) (yField w))
  else if nField w = 0x2#4 then .ok (.and (xField w) (yField w))
  else if nField w = 0x3#4 then .ok (.xor (xField w) (yField w))
  else if nField w = 0x4#4 then .ok (.addVxVy (xField w) (yField w))
  else if nField w = 0x5#4 then .ok (.sub (xField w) (yField w))
  else if nField w = 0x6#4 then .ok (.shr (xField w) (yField w))
  else if nField w = 0x7#4 then .ok (.subn (xField w) (yField w))
  else if nField w = 0xE#4 then .ok (.shl (xField w) (yField w))
  else .error (.unallocated8 w)

/-- Family 9: the low nibble must be 0 (R75). -/
def decodeFamily9 (w : Word) : Except DecodeReject Instr :=
  if nField w = 0#4 then .ok (.sneVxVy (xField w) (yField w)) else .error (.unallocated9 w)

/-- Family E: the low byte names the key test (R74, R75). -/
def decodeFamilyE (w : Word) : Except DecodeReject Instr :=
  if kkField w = 0x9E#8 then .ok (.skp (xField w))
  else if kkField w = 0xA1#8 then .ok (.sknp (xField w))
  else .error (.unallocatedE w)

/-- Family F: the low byte names the operation (R74, R75). -/
def decodeFamilyF (w : Word) : Except DecodeReject Instr :=
  if kkField w = 0x07#8 then .ok (.ldVxDt (xField w))
  else if kkField w = 0x0A#8 then .ok (.ldVxK (xField w))
  else if kkField w = 0x15#8 then .ok (.ldDtVx (xField w))
  else if kkField w = 0x18#8 then .ok (.ldStVx (xField w))
  else if kkField w = 0x1E#8 then .ok (.addIVx (xField w))
  else if kkField w = 0x29#8 then .ok (.ldFVx (xField w))
  else if kkField w = 0x33#8 then .ok (.ldBVx (xField w))
  else if kkField w = 0x55#8 then .ok (.ldMIVx (xField w))
  else if kkField w = 0x65#8 then .ok (.ldVxMI (xField w))
  else .error (.unallocatedF w)

/-- The instruction of a word, or why there is none: "The first nibble selects a family" (R75). -/
def decodeWord (w : Word) : Except DecodeReject Instr :=
  if opField w = 0x0#4 then decodeFamily0 w
  else if opField w = 0x1#4 then .ok (.jp (nnnField w))
  else if opField w = 0x2#4 then .ok (.call (nnnField w))
  else if opField w = 0x3#4 then .ok (.seVxKk (xField w) (kkField w))
  else if opField w = 0x4#4 then .ok (.sneVxKk (xField w) (kkField w))
  else if opField w = 0x5#4 then decodeFamily5 w
  else if opField w = 0x6#4 then .ok (.ldVxKk (xField w) (kkField w))
  else if opField w = 0x7#4 then .ok (.addVxKk (xField w) (kkField w))
  else if opField w = 0x8#4 then decodeFamily8 w
  else if opField w = 0x9#4 then decodeFamily9 w
  else if opField w = 0xA#4 then .ok (.ldINnn (nnnField w))
  else if opField w = 0xB#4 then .ok (.jpV0Nnn (nnnField w))
  else if opField w = 0xC#4 then .ok (.rnd (xField w) (kkField w))
  else if opField w = 0xD#4 then .ok (.drw (xField w) (yField w) (nField w))
  else if opField w = 0xE#4 then decodeFamilyE w
  else decodeFamilyF w

/-- The word of two bytes, the high byte first (R52). -/
def wordOfBytes (hi lo : Byte) : Word := hi ++ lo

/-- The two bytes of a word as memory holds them, the high byte at the lower address (R52). -/
def bytesOfWord (w : Word) : List Byte := [w.extractLsb' 8 8, w.extractLsb' 0 8]

/-- "A decoder always consumes 2 bytes" (R70): the instruction at the head of a list of bytes, and the rest of the list. -/
def decodeBytes : List Byte → Except DecodeReject (Instr × List Byte)
  | hi :: lo :: rest =>
    match decodeWord (wordOfBytes hi lo) with
    | .ok i    => .ok (i, rest)
    | .error r => .error r
  | _ => .error .truncated

/-- The instruction the decoder reads from an instruction of the opcode table whose bits are `w` (bits from `nbits` up
are 0), laid out in memory order. -/
def decodeTableWord (nbits w : Nat) : Option Instr :=
  match decodeBytes (bytesOfWord (BitVec.ofNat 16 (w % 2 ^ nbits))) with
  | .ok (i, _) => some i
  | .error _   => none

/-! ### Encoding (R73, R74) -/

/-- A word from its four nibbles, the most significant first: formats `XY`, `XYN` of R73. -/
def ofNibbles (op x y n : Nibble) : Word :=
  BitVec.ofNat 16 (op.toNat * 4096 + x.toNat * 256 + y.toNat * 16 + n.toNat)

/-- A word from two nibbles and its low byte: formats `XKK` and `X` of R73. -/
def ofNibblesByte (op x : Nibble) (kk : Byte) : Word :=
  BitVec.ofNat 16 (op.toNat * 4096 + x.toNat * 256 + kk.toNat)

/-- A word from its first nibble and a 12-bit address: format `NNN` of R73. -/
def ofNibbleAddr (op : Nibble) (nnn : Addr) : Word := BitVec.ofNat 16 (op.toNat * 4096 + nnn.toNat)

/-- The word of an instruction (R73, R74). -/
def encode : Instr → Word
  | .cls          => 0x00E0#16
  | .ret          => 0x00EE#16
  | .jp nnn       => ofNibbleAddr 0x1#4 nnn
  | .call nnn     => ofNibbleAddr 0x2#4 nnn
  | .seVxKk x kk  => ofNibblesByte 0x3#4 x kk
  | .sneVxKk x kk => ofNibblesByte 0x4#4 x kk
  | .seVxVy x y   => ofNibbles 0x5#4 x y 0x0#4
  | .ldVxKk x kk  => ofNibblesByte 0x6#4 x kk
  | .addVxKk x kk => ofNibblesByte 0x7#4 x kk
  | .ldVxVy x y   => ofNibbles 0x8#4 x y 0x0#4
  | .or x y       => ofNibbles 0x8#4 x y 0x1#4
  | .and x y      => ofNibbles 0x8#4 x y 0x2#4
  | .xor x y      => ofNibbles 0x8#4 x y 0x3#4
  | .addVxVy x y  => ofNibbles 0x8#4 x y 0x4#4
  | .sub x y      => ofNibbles 0x8#4 x y 0x5#4
  | .shr x y      => ofNibbles 0x8#4 x y 0x6#4
  | .subn x y     => ofNibbles 0x8#4 x y 0x7#4
  | .shl x y      => ofNibbles 0x8#4 x y 0xE#4
  | .sneVxVy x y  => ofNibbles 0x9#4 x y 0x0#4
  | .ldINnn nnn   => ofNibbleAddr 0xA#4 nnn
  | .jpV0Nnn nnn  => ofNibbleAddr 0xB#4 nnn
  | .rnd x kk     => ofNibblesByte 0xC#4 x kk
  | .drw x y n    => ofNibbles 0xD#4 x y n
  | .skp x        => ofNibblesByte 0xE#4 x 0x9E#8
  | .sknp x       => ofNibblesByte 0xE#4 x 0xA1#8
  | .ldVxDt x     => ofNibblesByte 0xF#4 x 0x07#8
  | .ldVxK x      => ofNibblesByte 0xF#4 x 0x0A#8
  | .ldDtVx x     => ofNibblesByte 0xF#4 x 0x15#8
  | .ldStVx x     => ofNibblesByte 0xF#4 x 0x18#8
  | .addIVx x     => ofNibblesByte 0xF#4 x 0x1E#8
  | .ldFVx x      => ofNibblesByte 0xF#4 x 0x29#8
  | .ldBVx x      => ofNibblesByte 0xF#4 x 0x33#8
  | .ldMIVx x     => ofNibblesByte 0xF#4 x 0x55#8
  | .ldVxMI x     => ofNibblesByte 0xF#4 x 0x65#8

/-- The bytes of an instruction in memory order (R52). -/
def encodeBytes (i : Instr) : List Byte := bytesOfWord (encode i)

end Sys2Proof
end

