-- ==== Sys2Proof/Config.lean ====
section
/-! DEFINITION. The parameters spec/00_scope.md R6 fixes, and the one free value of the model. `FONT`, R6's other OPEN
parameter, is an argument of the reset transaction (Machine/Ops.lean). -/

namespace Sys2Proof.Config

/-- `MEM_SIZE` (R6). -/
abbrev memSize : Nat := 4096

/-- `LOAD_ADDR` (R6). -/
abbrev loadAddr : Nat := 0x200

/-- `MAX_PROGRAM` (R6). -/
abbrev maxProgram : Nat := 3584

/-- `STACK_DEPTH` (R6). -/
abbrev stackDepth : Nat := 16

/-- `SCREEN_W` (R6). -/
abbrev screenW : Nat := 64

/-- `SCREEN_H` (R6). -/
abbrev screenH : Nat := 32

/-- The number of bytes of `FONT`: 16 glyphs of 5 bytes (R6). -/
abbrev fontSize : Nat := 80

/-- The byte the random source supplies to the `n`-th draw: an OPEN input of the step (R6, R132, R184), a free value with
no body. DESIGN CHOICE (log entry 2), safe: nothing can be proved of any value of it. -/
opaque randByte : Nat → Byte

end Sys2Proof.Config
end

