-- ==== Sys2Proof/Machine/State.lean ====
section
/-! DEFINITION. The state of the CORE block and of the memory and key table attached to it (spec/10_state.md R20), why a
step can stop, and the state right after reset (R35). -/

namespace Sys2Proof.Machine

/-- `RUN`, the dispatch controller's state (R30). -/
inductive RunState where
  /-- A step fetches and executes one instruction. -/
  | running
  /-- Fx0A has executed with register index x and no key has gone down yet. -/
  | awaitingKey (x : Nibble)
  /-- An instruction raised a fault; only reset leaves this value. -/
  | faulted
  deriving DecidableEq, Repr

/-- The pixels: `fb[x][y]` is `FB[x][y]`, x the column 0..63, y the row 0..31 (R29). -/
abbrev Framebuffer := Vector (Vector Bool 32) 64

/-- The bytes of `Mem` as (address, byte) pairs, addresses strictly rising and below 4096, none of them equal to what an
unlisted address reads as (`memWf`, `resetByte` in Machine/Ops.lean). -/
abbrev Memory := List Host.Cell

/-- The state aggregate (R20). -/
structure State where
  /-- `V[0..15]`, the general registers; `V[15]` is VF (R21, R22). -/
  v : Vector Byte 16
  /-- `I`, the index register (R24). -/
  i : Word
  /-- `PC`, 16 bits wide with a value below 4096 (R23; `Inv` in Safety.lean). -/
  pc : Word
  /-- `SP`, an 8-bit register whose value is 0..16 (R25). DESIGN CHOICE (log entry 6), safe: the range is in the type. -/
  sp : Fin 17
  /-- `Stack[1..16]`, `Stack[j]` at index j - 1 (R26, R27). -/
  stack : Vector Word 16
  /-- `DT`, the delay timer (R28). -/
  dt : Byte
  /-- `ST`, the sound timer (R28). -/
  st : Byte
  /-- `FB`, the framebuffer (R29). -/
  fb : Framebuffer
  /-- `RUN` (R30). -/
  run : RunState
  /-- `CAUSE`, the code of the latched fault: 0 none, 1 StackOverflow, 2 StackUnderflow (R31). -/
  cause : Byte
  /-- `Mem[0..4095]` (R33, R50). -/
  mem : Memory
  /-- `Key[0..15]`, true when pressed (R32). -/
  key : Vector Bool 16
  /-- The MODEL's own field: how many random bytes have been drawn; the next one is `Config.randByte randDraws`. It
  stands for the input `rand` of R184. DESIGN CHOICE (log entry 2), safe. -/
  randDraws : Nat
  deriving DecidableEq, Repr

/-- Why a step stops. -/
inductive Fault where
  /-- `FAULT(cause)`, answered by a step that begins with RUN = FAULTED and by nothing else: it writes nothing, and only
  reset leaves that state (R80, R173). The step in which an instruction raises a fault is a NEXT state (R84). DESIGN
  CHOICE (log entry 5), safe. -/
  | latched (cause : Byte)
  deriving DecidableEq, Repr

/-- What the model gives no meaning to. -/
inductive Refusal where
  /-- An instruction that has no meaning yet; no arm of `exec` answers so. Safe. -/
  | notModelled (mnemonic : String)
  /-- `is_set` outside the screen, which is not a legal request (R185, D35). Answered by `isSet` alone. Safe. -/
  | pixelOutsideScreen (x y : Nat)
  deriving DecidableEq, Repr

/-- The outcome of an instruction or of a step. -/
abbrev Result := Host.Outcome State Fault Refusal

/-- Every component at the last column of R20's table (R35, R200), with the default `FONT` of R57 as what memory with
nothing listed reads as (log entry 1); `randDraws` is 0, a DESIGN CHOICE (log entry 2). -/
def State.reset : State where
  v         := Vector.replicate 16 0#8
  i         := 0#16
  pc        := 0#16
  sp        := 0
  stack     := Vector.replicate 16 0#16
  dt        := 0#8
  st        := 0#8
  fb        := Vector.replicate 64 (Vector.replicate 32 false)
  run       := .running
  cause     := 0#8
  mem       := []
  key       := Vector.replicate 16 false
  randDraws := 0

end Sys2Proof.Machine
end

