-- ==== Sys2Proof/Machine/Operands.lean ====
section
/-! DEFINITION. Operand forms: how an instruction reads and writes the registers its fields name, and the one addressing
mode (spec/30_encoding.md R71, R72; spec/44_index_memory.md R166; spec/43_keys_timers.md R150). -/

namespace Sys2Proof.Machine

/-- `zext_16` of an immediate address (R12, R72). -/
def zextAddr (nnn : Addr) : Word := nnn.setWidth 16

/-- `zext_16` of a register value (R12). -/
def zextByte (b : Byte) : Word := b.setWidth 16

/-- `V[x]` (R21). -/
def readV (s : State) (x : Nibble) : Byte := s.v[x.toNat]'x.isLt

/-- `V[x] <- b` (R21). -/
def writeV (s : State) (x : Nibble) (b : Byte) : State := { s with v := s.v.set x.toNat b x.isLt }

/-- `I <- w`: all 16 bits are kept (R24). -/
def writeI (s : State) (w : Word) : State := { s with i := w }

/-- `PC <- w`: "Every write to PC ... is reduced modulo 4096" (R23). -/
def writePc (s : State) (w : Word) : State := { s with pc := w % 4096#16 }

/-- `DT <- b` (R28). -/
def writeDt (s : State) (b : Byte) : State := { s with dt := b }

/-- `ST <- b` (R28). -/
def writeSt (s : State) (b : Byte) : State := { s with st := b }

/-- `Key[k]` (R32). -/
def readKey (s : State) (k : Nibble) : Bool := s.key[k.toNat]'k.isLt

/-- `Key[k] <- b` (R32). -/
def writeKey (s : State) (k : Nibble) (b : Bool) : State := { s with key := s.key.set k.toNat b k.isLt }

/-- The key an instruction names by a register's value: the low nibble (R150). -/
def keyIndex (b : Byte) : Nibble := b.setWidth 4

/-- The effective address of byte `j` of an access through `I`: `(I + j) mod 4096` (R166). -/
def dataAddr (s : State) (j : Nat) : Nat := (s.i.toNat + j) % Config.memSize

/-- `V[b] * GLYPH_H + FONT_BASE` with GLYPH_H = 5 and FONT_BASE = 0, modulo 65536 (R162). -/
def glyphAddr (b : Byte) : Word := zextByte b * 5#16 + 0x000#16

end Sys2Proof.Machine
end

