-- ==== Sys2Proof/Machine/Ops.lean ====
section
/-! DEFINITION. The named operations the meanings share: memory, program counter and fetch, the return-address stack,
taking a fault, the random draw, the sprite blit, register blocks, and construction of the reset state. -/

namespace Sys2Proof.Machine

/-! ### Memory (spec/20_memory.md R50 to R60) -/

/-- The default `FONT`, glyphs 0 to F, five rows each, top row first (R57). PRESUMED (log entry 1): the spec gives these
bytes from general knowledge. -/
def fontDefaultBytes : List Byte :=
  ([0xF0, 0x90, 0x90, 0x90, 0xF0] : List Byte) ++ [0x20, 0x60, 0x20, 0x20, 0x70]
    ++ [0xF0, 0x10, 0xF0, 0x80, 0xF0] ++ [0xF0, 0x10, 0xF0, 0x10, 0xF0]
    ++ [0x90, 0x90, 0xF0, 0x10, 0x10] ++ [0xF0, 0x80, 0xF0, 0x10, 0xF0]
    ++ [0xF0, 0x80, 0xF0, 0x90, 0xF0] ++ [0xF0, 0x10, 0x20, 0x40, 0x40]
    ++ [0xF0, 0x90, 0xF0, 0x90, 0xF0] ++ [0xF0, 0x90, 0xF0, 0x10, 0xF0]
    ++ [0xF0, 0x90, 0xF0, 0x90, 0x90] ++ [0xE0, 0x90, 0xE0, 0x90, 0xE0]
    ++ [0xF0, 0x80, 0x80, 0x80, 0xF0] ++ [0xE0, 0x90, 0x90, 0x90, 0xE0]
    ++ [0xF0, 0x80, 0xF0, 0x80, 0xF0] ++ [0xF0, 0x80, 0xF0, 0x80, 0x80]

/-- What an address that memory does not list reads as: the reset contents of R56, the default `FONT` at 0x000..0x04F and
0x00 elsewhere (R35). -/
def resetByte (a : Nat) : Byte := fontDefaultBytes.getD a 0#8

/-- The canonical form of memory: addresses strictly rising and inside the address space, and no entry equal to what an
unlisted address reads as, so that equal memories are equal lists. -/
def memWf : Memory → Bool
  | []             => true
  | (a, b) :: rest => decide (a < Config.memSize) && b != resetByte a && rest.all (fun c => decide (a < c.1)) && memWf rest

/-- The byte at an address below 4096. -/
def memGet : Memory → Nat → Byte
  | [], a             => resetByte a
  | (k, b) :: rest, a => if k = a then b else memGet rest a

/-- Memory with the byte at an address below 4096 replaced, in canonical form. -/
def memSet : Memory → Nat → Byte → Memory
  | [], a, b             => if b = resetByte a then [] else [(a, b)]
  | (k, c) :: rest, a, b =>
    if a < k then (if b = resetByte a then (k, c) :: rest else (a, b) :: (k, c) :: rest)
    else if a = k then (if b = resetByte a then rest else (a, b) :: rest)
    else (k, c) :: memSet rest a b

/-- `MemRead(a, 1)`: the address is reduced modulo 4096 (R13, R51). -/
def readMem (s : State) (a : Nat) : Byte := memGet s.mem (a % Config.memSize)

/-- `MemWrite(a, 1, b)`: the address is reduced modulo 4096 (R13, R51); no address is protected (R59). -/
def writeMem (s : State) (a : Nat) (b : Byte) : State := { s with mem := memSet s.mem (a % Config.memSize) b }

/-- Consecutive bytes from an address on, in increasing order, each address reduced on its own (R51). -/
def writeBytes (s : State) (a : Nat) : List Byte → State
  | []      => s
  | b :: bs => writeBytes (writeMem s a b) (a + 1) bs

/-- Byte `j` of the data that `I` points at (R166). -/
def readData (s : State) (j : Nat) : Byte := readMem s (dataAddr s j)

/-- A store to byte `j` of the data that `I` points at (R166). -/
def writeData (s : State) (j : Nat) (b : Byte) : State := writeMem s (dataAddr s j) b

/-! ### Program counter and fetch (spec/30_encoding.md R81, R82) -/

/-- `Fetch(a)`: two bytes, the high byte at the lower address, each address reduced modulo 4096 (R52). -/
def fetchAt (s : State) (a : Nat) : Word := wordOfBytes (readMem s a) (readMem s (a + 1))

/-- The word at `PC` (R81). -/
def fetchWord (s : State) : Word := fetchAt s s.pc.toNat

/-- `PC <- (PC + 2) mod 4096`: a step's advance (R82). -/
def advancePc (s : State) : State := writePc s (s.pc + 2#16)

/-- A skip: "A skip adds 2 to the already-advanced PC" when its condition holds (R100). -/
def skipIf (c : Bool) (s : State) : State := if c then writePc s (s.pc + 2#16) else s

/-! ### The return-address stack (spec/10_state.md R27) -/

/-- `Push(a)`: none when the stack is full, and nothing is written then (R27). -/
def push (s : State) (a : Word) : Option State :=
  if h : s.sp.val < 16 then some { s with sp := ⟨s.sp.val + 1, by omega⟩, stack := s.stack.set s.sp.val a }
  else none

/-- `Pop()`: none when the stack is empty, and nothing is written then; the popped slot keeps its contents (R27). -/
def pop (s : State) : Option (Word × State) :=
  if h : 0 < s.sp.val then
    some (s.stack[s.sp.val - 1]'(by omega), { s with sp := ⟨s.sp.val - 1, by omega⟩ })
  else none

/-! ### Taking a fault (spec/30_encoding.md R84; spec/60_exceptions.md R170 to R173) -/

/-- The causes of R31. -/
def causeOverflow : Byte := 1#8

/-- The causes of R31. -/
def causeUnderflow : Byte := 2#8

/-- Fault entry, from the state an instruction's rule starts in: PC goes back to the instruction's own address, which is
the advanced PC less 2 (DEDUCED from R82 and R84, log entry 7, safe), RUN becomes FAULTED and CAUSE the code. Nothing
else changes, and there is no return from it but reset (R173). -/
def takeFault (cause : Byte) (s : State) : State :=
  { writePc s (s.pc - 2#16) with run := .faulted, cause := cause }

/-! ### The random byte (spec/60_exceptions.md R184) -/

/-- One draw from the random source: a free value, and the count of draws advanced (log entries 2 and 3). -/
def drawRand (s : State) : Byte × State := (Config.randByte s.randDraws, { s with randDraws := s.randDraws + 1 })

/-! ### The framebuffer (spec/42_display.md R140 to R143) -/

/-- `FB[x][y]`. -/
def pixel (fb : Framebuffer) (x : Fin 64) (y : Fin 32) : Bool := fb[x][y]

/-- `FB[x][y] <- FB[x][y] ^ 1`. -/
def flipPixel (fb : Framebuffer) (x : Fin 64) (y : Fin 32) : Framebuffer := fb.set x (fb[x].set y (!fb[x][y]))

/-- Every pixel 0 (R140). -/
def clearFb : Framebuffer := Vector.replicate 64 (Vector.replicate 32 false)

/-- A column or row coordinate taken modulo the width of the screen (R141). -/
def wrapX (x : Nat) : Fin 64 := ⟨x % 64, Nat.mod_lt _ (by decide)⟩

/-- A row coordinate taken modulo the height of the screen (R141). -/
def wrapY (y : Nat) : Fin 32 := ⟨y % 32, Nat.mod_lt _ (by decide)⟩

/-- Bit_index `b` of a sprite byte: bit_index 0 is bit 7, the leftmost pixel (R142). -/
def spriteBit (byte : Byte) (b : Nat) : Bool := byte.getLsbD (7 - b)

/-- One sprite pixel: where the sprite's bit is 1, flip the pixel and note a collision if it was set (R141, R143). The
pair is the framebuffer and the collision bit so far. -/
def drawBit (x : Fin 64) (y : Fin 32) (bit : Bool) (p : Framebuffer × Bool) : Framebuffer × Bool :=
  if bit then (flipPixel p.1 x y, p.2 || pixel p.1 x y) else p

/-- The first `k` pixels of one sprite row, from the left (R141). -/
def drawBits (sx y : Nat) (byte : Byte) : Nat → Framebuffer × Bool → Framebuffer × Bool
  | 0, p     => p
  | k + 1, p => drawBit (wrapX (sx + k)) (wrapY y) (spriteBit byte k) (drawBits sx y byte k p)

/-- The rows of a sprite, one below another from row `y` on (R141). -/
def drawRows (sx : Nat) : Nat → List Byte → Framebuffer × Bool → Framebuffer × Bool
  | _, [], p            => p
  | y, byte :: bytes, p => drawRows sx (y + 1) bytes (drawBits sx y byte 8 p)

/-- `DrawSprite(sx, sy, bytes, h)` with h the number of bytes: the framebuffer after, and the collision bit (R141). -/
def drawSprite (sx sy : Byte) (bytes : List Byte) (fb : Framebuffer) : Framebuffer × Bool :=
  drawRows sx.toNat sy.toNat bytes (fb, false)

/-- The sprite's bytes, `Mem[(I + r) mod 4096]` for r in 0 .. n-1 (R144). -/
def spriteBytes (s : State) (n : Nibble) : List Byte := (List.range n.toNat).map (readData s)

/-! ### Register blocks (spec/44_index_memory.md R164, R165) -/

/-- Store V0 .. V(n-1) at I on, in increasing order. -/
def storeRegs (s : State) : Nat → State
  | 0     => s
  | n + 1 => writeData (storeRegs s n) n (readV (storeRegs s n) (BitVec.ofNat 4 n))

/-- Load V0 .. V(n-1) from I on, in increasing order. -/
def loadRegs (s : State) : Nat → State
  | 0     => s
  | n + 1 => writeV (loadRegs s n) (BitVec.ofNat 4 n) (readData (loadRegs s n) n)

/-! ### Construction (spec/70_reset_and_hazards.md R200) -/

/-- The `FONT` parameter (R6, R57). -/
abbrev Font := Vector Byte 80

/-- The default `FONT` (R57; log entry 1). -/
def fontDefault : Font := ⟨fontDefaultBytes.toArray, by decide⟩

/-- The reset state of a machine whose `FONT` is `font` (R35, R200). -/
def resetWith (font : Font) : State := writeBytes State.reset 0 font.toList

end Sys2Proof.Machine
end

