-- ==== Sys2Proof/Machine/Cycle.lean ====
section
/-! DEFINITION. The fetch–decode–execute cycle (spec/30_encoding.md R80), over whatever executes a decoded instruction, and
what a step returns to the driver. -/

namespace Sys2Proof.Machine

/-- What a step returns to the driver (R80). -/
inductive StepResult where
  /-- The step ran an instruction. -/
  | ok
  /-- The block waits for a key. -/
  | wait
  /-- The block has latched a fault. -/
  | fault (cause : Byte)
  deriving DecidableEq, Repr

/-- What a step that leaves the block in `s` returns: R80's last line, by the RUN it leaves. -/
def stepResult (s : State) : StepResult :=
  match s.run with
  | .running       => .ok
  | .awaitingKey _ => .wait
  | .faulted       => .fault s.cause

/-- One instruction from a RUNNING block: fetch, advance PC, execute; an unallocated word has no effect but the advance
(R76, R80 to R83). -/
def runOne (execute : Instr → State → Result) (s : State) : Result :=
  match decodeWord (fetchWord s) with
  | .ok i    => execute i (advancePc s)
  | .error _ => .next (advancePc s)

/-- `step` (R80): a block that waits for a key writes nothing, and one that has faulted answers the latched fault and
writes nothing (DESIGN CHOICE, log entry 5, safe). -/
def cycle (execute : Instr → State → Result) (s : State) : Result :=
  match s.run with
  | .running       => runOne execute s
  | .awaitingKey _ => .next s
  | .faulted       => .fault (.latched s.cause)

/-- `s` with the bytes of a word where its next step fetches, and RUN = RUNNING (so CAUSE = 0, R31) so that this step
fetches at all (log entry 9). -/
def placeWord (s : State) (w : Word) : State :=
  { writeBytes s s.pc.toNat (bytesOfWord w) with run := .running, cause := 0#8 }

end Sys2Proof.Machine
end

