-- ==== Sys2Proof/Machine/Flags.lean ====
section
/-! DEFINITION. The values `VF` takes: every flag computation of spec/41_alu.md R133. Dxyn's collision bit is computed with
the blit it reports on (`drawSprite` in Machine/Ops.lean). -/

namespace Sys2Proof.Machine

/-- A flag as the register value 1 or 0. -/
def flagByte (b : Bool) : Byte := if b then 1#8 else 0#8

/-- Carry out of bit 7: the 9-bit sum exceeds 255 (R127). -/
def carryFlag (a b : Byte) : Byte := flagByte (255 < a.toNat + b.toNat)

/-- Strict unsigned greater-than; equal operands give 0 (R128, R130). -/
def greaterFlag (a b : Byte) : Byte := flagByte (b.toNat < a.toNat)

/-- Bit 0, which a right shift moves out (R129). -/
def lowBitFlag (a : Byte) : Byte := a &&& 1#8

/-- Bit 7, which a left shift moves out (R131). -/
def highBitFlag (a : Byte) : Byte := (a >>> 7) &&& 1#8

end Sys2Proof.Machine
end

