-- ==== Sys2Proof/Machine/Alu.lean ====
section
/-! DEFINITION. Register loads, the ALU and the random byte (spec/41_alu.md R120 to R132). Arithmetic wraps modulo 256, and
where a rule has two statements VF is written first and the second statement reads what the first left (R120). -/

namespace Sys2Proof.Machine

/-- LD Vx, kk (R121). -/
def execLdVxKk (x : Nibble) (kk : Byte) (s : State) : Result := .next (writeV s x kk)

/-- ADD Vx, kk (R122): no flag. -/
def execAddVxKk (x : Nibble) (kk : Byte) (s : State) : Result := .next (writeV s x (readV s x + kk))

/-- LD Vx, Vy (R123). -/
def execLdVxVy (x y : Nibble) (s : State) : Result := .next (writeV s x (readV s y))

/-- OR Vx, Vy (R124). -/
def execOr (x y : Nibble) (s : State) : Result := .next (writeV s x (readV s x ||| readV s y))

/-- AND Vx, Vy (R125). -/
def execAnd (x y : Nibble) (s : State) : Result := .next (writeV s x (readV s x &&& readV s y))

/-- XOR Vx, Vy (R126). -/
def execXor (x y : Nibble) (s : State) : Result := .next (writeV s x (readV s x ^^^ readV s y))

/-- ADD Vx, Vy (R127): both operands are read before VF is written. -/
def execAddVxVy (x y : Nibble) (s : State) : Result :=
  let a := readV s x
  let b := readV s y
  .next (writeV (writeV s regF (carryFlag a b)) x (a + b))

/-- SUB Vx, Vy (R128): the subtraction reads V[x] and V[y] after the VF write. -/
def execSub (x y : Nibble) (s : State) : Result :=
  let t := writeV s regF (greaterFlag (readV s x) (readV s y))
  .next (writeV t x (readV t x - readV t y))

/-- SHR Vx, Vy (R129): y is not read; the shift reads V[x] after the VF write. -/
def execShr (x _y : Nibble) (s : State) : Result :=
  let t := writeV s regF (lowBitFlag (readV s x))
  .next (writeV t x (readV t x >>> 1))

/-- SUBN Vx, Vy (R130): the subtraction reads V[x] and V[y] after the VF write. -/
def execSubn (x y : Nibble) (s : State) : Result :=
  let t := writeV s regF (greaterFlag (readV s y) (readV s x))
  .next (writeV t x (readV t y - readV t x))

/-- SHL Vx, Vy (R131): y is not read; the shift reads V[x] after the VF write. -/
def execShl (x _y : Nibble) (s : State) : Result :=
  let t := writeV s regF (highBitFlag (readV s x))
  .next (writeV t x (readV t x <<< 1))

/-- RND Vx, kk with the step's `rand` input given (R132). -/
def rndWith (rand : Byte) (x : Nibble) (kk : Byte) (s : State) : State := writeV s x (rand &&& kk)

/-- RND Vx, kk (R132) with the next free draw as `rand` (R184; log entries 2 and 3). -/
def execRnd (x : Nibble) (kk : Byte) (s : State) : Result := .next (rndWith (drawRand s).1 x kk (drawRand s).2)

end Sys2Proof.Machine
end

