-- ==== Sys2Proof/Machine/Control.lean ====
section
/-! DEFINITION. Control transfer (spec/40_control.md R100 to R108). PC already holds the address of the next instruction
when a meaning starts (R82). -/

namespace Sys2Proof.Machine

/-- RET (R101): pop into PC, or take StackUnderflow when the stack is empty (R171). -/
def execRet (s : State) : Result :=
  match pop s with
  | some (a, t) => .next (writePc t a)
  | none        => .next (takeFault causeUnderflow s)

/-- JP nnn (R102). -/
def execJp (nnn : Addr) (s : State) : Result := .next (writePc s (zextAddr nnn))

/-- CALL nnn (R103): push the return address and jump, or take StackOverflow when the stack is full (R170). -/
def execCall (nnn : Addr) (s : State) : Result :=
  match push s s.pc with
  | some t => .next (writePc t (zextAddr nnn))
  | none   => .next (takeFault causeOverflow s)

/-- SE Vx, kk (R104). -/
def execSeVxKk (x : Nibble) (kk : Byte) (s : State) : Result := .next (skipIf (readV s x == kk) s)

/-- SNE Vx, kk (R105). -/
def execSneVxKk (x : Nibble) (kk : Byte) (s : State) : Result := .next (skipIf (readV s x != kk) s)

/-- SE Vx, Vy (R106). -/
def execSeVxVy (x y : Nibble) (s : State) : Result := .next (skipIf (readV s x == readV s y) s)

/-- SNE Vx, Vy (R107). -/
def execSneVxVy (x y : Nibble) (s : State) : Result := .next (skipIf (readV s x != readV s y) s)

/-- JP V0, nnn (R108): the sum is reduced modulo 4096 by the write to PC. -/
def execJpV0Nnn (nnn : Addr) (s : State) : Result := .next (writePc s (zextAddr nnn + zextByte (readV s 0#4)))

end Sys2Proof.Machine
end

