-- ==== Sys2Proof/Machine/Display.lean ====
section
/-! DEFINITION. The framebuffer instructions (spec/42_display.md R140, R144). -/

namespace Sys2Proof.Machine

/-- CLS (R140): VF is not written. -/
def execCls (s : State) : Result := .next { s with fb := clearFb }

/-- DRW Vx, Vy, n (R144): coordinates and sprite are read before VF is written; n = 0 draws nothing and gives VF = 0. -/
def execDrw (x y n : Nibble) (s : State) : Result :=
  let p := drawSprite (readV s x) (readV s y) (spriteBytes s n) s.fb
  .next (writeV { s with fb := p.1 } regF (flagByte p.2))

end Sys2Proof.Machine
end

