-- ==== Sys2Proof/Machine/IndexMemory.lean ====
section
/-! DEFINITION. The index register, font lookup, BCD and block transfer (spec/44_index_memory.md R160 to R165). -/

namespace Sys2Proof.Machine

/-- LD I, nnn (R160). -/
def execLdINnn (nnn : Addr) (s : State) : Result := .next (writeI s (zextAddr nnn))

/-- ADD I, Vx (R161): modulo 65536, and VF is not written. -/
def execAddIVx (x : Nibble) (s : State) : Result := .next (writeI s (s.i + zextByte (readV s x)))

/-- LD F, Vx (R162): V[x] is not reduced to a nibble. -/
def execLdFVx (x : Nibble) (s : State) : Result := .next (writeI s (glyphAddr (readV s x)))

/-- LD B, Vx (R163): hundreds, tens, units. -/
def execLdBVx (x : Nibble) (s : State) : Result :=
  let b := readV s x
  .next (writeData (writeData (writeData s 0 (b / 100#8)) 1 (b / 10#8 % 10#8)) 2 (b % 10#8))

/-- LD [I], Vx (R164): V0 .. Vx, and I is unchanged. -/
def execLdMIVx (x : Nibble) (s : State) : Result := .next (storeRegs s (x.toNat + 1))

/-- LD Vx, [I] (R165): V0 .. Vx, and I is unchanged. -/
def execLdVxMI (x : Nibble) (s : State) : Result := .next (loadRegs s (x.toNat + 1))

end Sys2Proof.Machine
end

