-- ==== Sys2Proof/Machine/KeysTimers.lean ====
section
/-! DEFINITION. Key tests, the key wait and the timers (spec/43_keys_timers.md R150 to R156). -/

namespace Sys2Proof.Machine

/-- SKP Vx (R151). -/
def execSkp (x : Nibble) (s : State) : Result := .next (skipIf (readKey s (keyIndex (readV s x))) s)

/-- SKNP Vx (R152). -/
def execSknp (x : Nibble) (s : State) : Result := .next (skipIf (!readKey s (keyIndex (readV s x))) s)

/-- LD Vx, DT (R153). -/
def execLdVxDt (x : Nibble) (s : State) : Result := .next (writeV s x s.dt)

/-- LD Vx, K (R154): the wait begins; V[x] is written by the `key_down` that ends it (`keyDown`). -/
def execLdVxK (x : Nibble) (s : State) : Result := .next { s with run := .awaitingKey x }

/-- LD DT, Vx (R155). -/
def execLdDtVx (x : Nibble) (s : State) : Result := .next (writeDt s (readV s x))

/-- LD ST, Vx (R156). -/
def execLdStVx (x : Nibble) (s : State) : Result := .next (writeSt s (readV s x))

end Sys2Proof.Machine
end

