-- ==== Sys2Proof/Machine/Step.lean ====
section
/-! DEFINITION. One step of the block (spec/30_encoding.md R80) with the free draw as its random input, and the state whose
next step runs a given word. -/

namespace Sys2Proof.Machine

/-- One step (R80). -/
def step (s : State) : Host.Outcome State Fault Refusal := cycle exec s

/-- `s` with an instruction of the opcode table stored where its next step fetches; bits from `nbits` up are 0. -/
def State.withFetchWord (s : State) (nbits w : Nat) : State := placeWord s (BitVec.ofNat 16 (w % 2 ^ nbits))

end Sys2Proof.Machine
end

