-- ==== Sys2Proof/Machine/Transactions.lean ====
section
/-! DEFINITION. The transactions of the block's interface (spec/00_scope.md R10), one function each, and `transact`, which
joins them. A transaction is atomic (R11); a run with host events is a list of transactions (`transactAll`). -/

namespace Sys2Proof.Machine

/-- `reset`, in every RUN state, of a machine whose `FONT` is `font` (R200). The random source is outside the block, so
the count of its draws goes on (log entry 2). -/
def doReset (font : Font) (s : State) : State := { resetWith font with randDraws := s.randDraws }

/-- What `load` answers (R58). -/
inductive LoadResult where
  /-- The program is in memory and PC is 0x200. -/
  | ok
  /-- More than 3584 bytes: nothing was written. -/
  | oversizeProgram
  deriving DecidableEq, Repr

/-- `load(bytes)`: memory from 0x200 on and PC, and nothing else; in every RUN state (R58, R173). -/
def load (bytes : List Byte) (s : State) : LoadResult × State :=
  if Config.maxProgram < bytes.length then (.oversizeProgram, s)
  else (.ok, writePc (writeBytes s Config.loadAddr bytes) (BitVec.ofNat 16 Config.loadAddr))

/-- `Execute(w, rand)` with the random byte given: "Only Cxkk reads `rand`" (R83). -/
def executeWith (rand : Byte) (i : Instr) (s : State) : Result :=
  match i with
  | .rnd x kk => .next (rndWith rand x kk s)
  | other     => exec other s

/-- `step(rand)`: the state after and what the driver gets; a block that has faulted keeps its state (R80, R173). -/
def stepWith (rand : Byte) (s : State) : Host.Outcome (State × StepResult) Fault Refusal :=
  match cycle (executeWith rand) s with
  | .next t             => .next (t, stepResult t)
  | .fault (.latched c) => .next (s, .fault c)
  | .refused r          => .refused r

/-- `tick_delay` (R180), in every RUN state. -/
def tickDelay (s : State) : State := if 0 < s.dt.toNat then writeDt s (s.dt - 1#8) else s

/-- `tick_sound` (R180), in every RUN state. -/
def tickSound (s : State) : State := if 0 < s.st.toNat then writeSt s (s.st - 1#8) else s

/-- `key_down(k)` (R182); it completes a key wait, whatever `Key[k]` held before (R183). -/
def keyDown (k : Nibble) (s : State) : State :=
  match s.run with
  | .awaitingKey x => { writeV (writeKey s k true) x (k.setWidth 8) with run := .running }
  | .running       => writeKey s k true
  | .faulted       => writeKey s k true

/-- `key_up(k)` (R182). -/
def keyUp (k : Nibble) (s : State) : State := writeKey s k false

/-- `is_set(x, y)` (R185): none outside the screen, where a request is not legal. -/
def isSet (x y : Nat) (s : State) : Option Bool :=
  if h : x < 64 ∧ y < 32 then some (pixel s.fb ⟨x, h.1⟩ ⟨y, h.2⟩) else none

/-- What the diagnostics port shows (R186). -/
structure Diag where
  v     : Vector Byte 16
  i     : Word
  pc    : Word
  sp    : Byte
  dt    : Byte
  st    : Byte
  run   : RunState
  cause : Byte
  deriving DecidableEq, Repr

/-- `diag` (R186). -/
def diag (s : State) : Diag where
  v     := s.v
  i     := s.i
  pc    := s.pc
  sp    := BitVec.ofNat 8 s.sp.val
  dt    := s.dt
  st    := s.st
  run   := s.run
  cause := s.cause

/-- The transactions of R10's table, with their inputs. -/
inductive Transaction where
  | reset
  | load (bytes : List Byte)
  | step (rand : Byte)
  | tickDelay
  | tickSound
  | keyDown (k : Nibble)
  | keyUp (k : Nibble)
  | isSet (x y : Nat)
  | diag
  deriving DecidableEq, Repr

/-- What a transaction answers its initiator (R10). -/
inductive Response where
  | done
  | loaded (r : LoadResult)
  | stepped (r : StepResult)
  | pixel (b : Bool)
  | diag (d : Diag)
  deriving DecidableEq, Repr

/-- One transaction on a machine whose `FONT` is `font` (R10, R11). -/
def transact (font : Font) (t : Transaction) (s : State) : Host.Outcome (State × Response) Fault Refusal :=
  match t with
  | .reset      => .next (doReset font s, .done)
  | .load bytes => .next ((load bytes s).2, .loaded (load bytes s).1)
  | .step rand  =>
    match stepWith rand s with
    | .next (s', r) => .next (s', .stepped r)
    | .fault f      => .fault f
    | .refused r    => .refused r
  | .tickDelay  => .next (tickDelay s, .done)
  | .tickSound  => .next (tickSound s, .done)
  | .keyDown k  => .next (keyDown k s, .done)
  | .keyUp k    => .next (keyUp k s, .done)
  | .isSet x y  =>
    match isSet x y s with
    | some b => .next (s, .pixel b)
    | none   => .refused (.pixelOutsideScreen x y)
  | .diag       => .next (s, .diag (diag s))

/-- A list of transactions, one after another: "Transactions are serialised" (R11). -/
def transactAll (font : Font) : List Transaction → State → Host.Outcome State Fault Refusal
  | [], s      => .next s
  | t :: ts, s =>
    match transact font t s with
    | .next (s', _) => transactAll font ts s'
    | .fault f      => .fault f
    | .refused r    => .refused r

end Sys2Proof.Machine
end

