-- ==== Sys2Proof/Machine/RunEnd.lean ====
section
/-! DEFINITION. The end of a run (spec/70_reset_and_hazards.md R204). A run is a state and the list of transactions that are
offered to it. -/

namespace Sys2Proof.Machine

/-- (a) of R204: RUNNING at a jump to itself. -/
abbrev SelfJump (s : State) : Prop := s.run = .running ∧ fetchWord s = 0x1000#16 ||| s.pc

/-- (c) of R204: a key wait, and no `key_down` among the transactions still offered. -/
abbrev WaitsInVain (rest : List Transaction) (s : State) : Prop :=
  (∃ x, s.run = .awaitingKey x) ∧ ∀ k, .keyDown k ∉ rest

/-- The three conditions of R204, in a state between transactions with `rest` still offered (log entry 15). -/
abbrev AtEnd (rest : List Transaction) (s : State) : Prop := SelfJump s ∨ s.run = .faulted ∨ WaitsInVain rest s

/-- "the first state, reached between transactions, that meets one of these conditions" (R204); none where the run has no
end among the transactions offered. -/
def endOfRun (font : Font) : List Transaction → State → Option State
  | [], s      => if AtEnd [] s then some s else none
  | a :: rest, s =>
    if AtEnd (a :: rest) s then some s
    else match transact font a s with
      | .next (t, _) => endOfRun font rest t
      | .fault _     => none
      | .refused _   => none

end Sys2Proof.Machine
end

