-- ==== Sys2Proof/Safety.lean ====
section
/-! DEFINITION. What claims are stated in: the invariant of the state, what a transition leaves alone, and what an
instruction may write (spec/10_state.md R20 to R31; spec/00_scope.md R15). The end of a run is in Machine/RunEnd.lean. -/

namespace Sys2Proof.Machine

/-- "CAUSE is non-zero exactly when RUN = FAULTED", and it is 0, 1 or 2 (R31). -/
def CauseMatchesRun (s : State) : Prop :=
  (s.cause ≠ 0#8 ↔ s.run = .faulted) ∧ s.cause.toNat ≤ 2

/-- What every reachable state meets: PC is inside the address space (R23), every stack slot holds a PC value (R14), CAUSE
agrees with RUN (R31), and memory is in canonical form. That SP is 0..16 (R25) is in the type of the field. -/
structure Inv (s : State) : Prop where
  pc_lt       : s.pc.toNat < 4096
  stack_lt    : ∀ j : Fin 16, (s.stack[j]).toNat < 4096
  cause_run   : CauseMatchesRun s
  mem_wf      : memWf s.mem = true

/-- A word with these fixed bits decodes to this instruction, its operands from the word's fields (R74, R75). -/
def EncodedAs (mask value : Word) (instr : Word → Instr) : Prop :=
  ∀ w : Word, w &&& mask = value → decodeWord w = .ok (instr w)

/-! ### What a transition leaves alone (R15) -/

/-- Every general register but those listed holds what it held. -/
def RegsSameBut (rs : List Nibble) (s t : State) : Prop := ∀ r : Nibble, r ∉ rs → readV t r = readV s r

/-- Every byte of memory but those at the listed addresses reads as it did. -/
def MemSameBut (as : List Nat) (s t : State) : Prop := ∀ a : Nat, a < 4096 → a ∉ as → readMem t a = readMem s a

/-- Every pixel is as it was. -/
def PixelsSame (s t : State) : Prop := ∀ (x : Fin 64) (y : Fin 32), pixel t.fb x y = pixel s.fb x y

/-- Every key is as it was. -/
def KeysSame (s t : State) : Prop := ∀ k : Nibble, readKey t k = readKey s k

/-- Both timers are as they were. -/
def TimersSame (s t : State) : Prop := t.dt = s.dt ∧ t.st = s.st

/-- The stack and its pointer are as they were. -/
def StackSame (s t : State) : Prop := t.sp = s.sp ∧ t.stack = s.stack

/-- RUN and CAUSE are as they were. -/
def StatusSame (s t : State) : Prop := t.run = s.run ∧ t.cause = s.cause

/-- Nothing has changed but, perhaps, PC, the stack and its pointer, RUN and CAUSE. -/
def DataSame (s t : State) : Prop :=
  RegsSameBut [] s t ∧ t.i = s.i ∧ TimersSame s t ∧ KeysSame s t ∧ PixelsSame s t ∧ MemSameBut [] s t ∧
    t.randDraws = s.randDraws

/-- Nothing has changed but, perhaps, PC and the general registers listed. -/
def OnlyRegs (rs : List Nibble) (s t : State) : Prop :=
  RegsSameBut rs s t ∧ t.i = s.i ∧ TimersSame s t ∧ KeysSame s t ∧ PixelsSame s t ∧ MemSameBut [] s t ∧
    StackSame s t ∧ StatusSame s t ∧ t.randDraws = s.randDraws

/-- Nothing has changed but, perhaps, PC and the bytes at the addresses listed. -/
def OnlyMem (as : List Nat) (s t : State) : Prop :=
  RegsSameBut [] s t ∧ t.i = s.i ∧ TimersSame s t ∧ KeysSame s t ∧ PixelsSame s t ∧ MemSameBut as s t ∧
    StackSame s t ∧ StatusSame s t ∧ t.randDraws = s.randDraws

/-- A stack fault with this cause has been taken: nothing has changed but PC, RUN and CAUSE (R84, R172). -/
def FaultTaken (cause : Byte) (s t : State) : Prop :=
  DataSame s t ∧ StackSame s t ∧ t.run = .faulted ∧ t.cause = cause

/-! ### The sprite blit -/

/-- Pixel (x, y) is one the sprite `bytes` at (sx, sy) XORs: some row r and bit_index b, the bit 1, reach it after the
wrap of both coordinates (R141, R142). -/
def SpriteCovers (sx sy : Byte) (bytes : List Byte) (x : Fin 64) (y : Fin 32) : Prop :=
  ∃ r, ∃ h : r < bytes.length, ∃ b, b < 8 ∧ spriteBit (bytes[r]'h) b = true ∧
    x = wrapX (sx.toNat + b) ∧ y = wrapY (sy.toNat + r)

/-- Pixel (px, py) is one that Dxyn XORs in `s`, in the terms of R141, R142 and R144: row r of n, bit_index b, the bit
`(Mem[(I + r) mod 4096] >> (7 - b)) & 1`, the pixel `((V[x] + b) mod 64, (V[y] + r) mod 32)`. -/
def DrwHits (s : State) (x y n : Nibble) (px : Fin 64) (py : Fin 32) : Prop :=
  ∃ r b : Nat, r < n.toNat ∧ b < 8 ∧ (readMem s ((s.i.toNat + r) % 4096)).toNat / 2 ^ (7 - b) % 2 = 1 ∧
    px.val = ((readV s x).toNat + b) % 64 ∧ py.val = ((readV s y).toNat + r) % 32

/-! ### What an instruction may write -/

/-- The general registers an instruction names as written in its rule (R36): its destination, and VF where R133 says so. -/
def writtenRegs : Instr → List Nibble
  | .cls | .ret | .jp _ | .call _ => []
  | .seVxKk _ _ | .sneVxKk _ _ | .seVxVy _ _ | .sneVxVy _ _ => []
  | .ldVxKk x _ | .addVxKk x _ => [x]
  | .ldVxVy x _ | .or x _ | .and x _ | .xor x _ => [x]
  | .addVxVy x _ | .sub x _ | .shr x _ | .subn x _ | .shl x _ => [x, regF]
  | .ldINnn _ | .jpV0Nnn _ => []
  | .rnd x _ => [x]
  | .drw _ _ _ => [regF]
  | .skp _ | .sknp _ => []
  | .ldVxDt x => [x]
  | .ldVxK _ | .ldDtVx _ | .ldStVx _ => []
  | .addIVx _ | .ldFVx _ | .ldBVx _ | .ldMIVx _ => []
  | .ldVxMI x => (List.range (x.toNat + 1)).map (BitVec.ofNat 4)

/-- The addresses an instruction stores to, computed in the state its rule starts in (R163, R164). -/
def storedAddrs (i : Instr) (s : State) : List Nat :=
  match i with
  | .ldBVx _  => [dataAddr s 0, dataAddr s 1, dataAddr s 2]
  | .ldMIVx x => (List.range (x.toNat + 1)).map (dataAddr s)
  | .cls | .ret | .jp _ | .call _ | .seVxKk _ _ | .sneVxKk _ _ | .seVxVy _ _ | .sneVxVy _ _ => []
  | .ldVxKk _ _ | .addVxKk _ _ | .ldVxVy _ _ | .or _ _ | .and _ _ | .xor _ _ | .addVxVy _ _ => []
  | .sub _ _ | .shr _ _ | .subn _ _ | .shl _ _ | .ldINnn _ | .jpV0Nnn _ | .rnd _ _ | .drw _ _ _ => []
  | .skp _ | .sknp _ | .ldVxDt _ | .ldVxK _ | .ldDtVx _ | .ldStVx _ | .addIVx _ | .ldFVx _ | .ldVxMI _ => []

end Sys2Proof.Machine
end

