-- ==== Sys2Proof/Certificates/Slice0/Obligations.lean ====
section
/-! DEFINITION. The statements about the model, for the provers. Each cites the rule it formalises; where a clause rests on a
choice the spec marks as its own (a decision D<n> of spec/92_eei_decisions.md) or on one of the model's (a log entry), its
docstring says so. Except where a statement says `step` or `transact`, the state is the one an instruction's rule starts
in: PC is already advanced (R82). -/

open Sys2Proof Sys2Proof.Machine

/-! ### Encoding -/

/-- Words written out from the patterns of R74 (and the examples of the instruction rules) decode to what they stand for. -/
def Obligations.SpecWordsDecode : Prop :=
  decodeWord 0b0000000011100000#16 = .ok .cls ∧
  decodeWord 0b0010001100000000#16 = .ok (.call 0x300#12) ∧
  decodeWord 0b0110101001000010#16 = .ok (.ldVxKk 0xA#4 0x42#8) ∧
  decodeWord 0b1000000100100101#16 = .ok (.sub 1#4 2#4) ∧
  decodeWord 0b1101000100100010#16 = .ok (.drw 1#4 2#4 2#4) ∧
  decodeWord 0b1110000110011110#16 = .ok (.skp 1#4) ∧
  decodeWord 0b1111000100110011#16 = .ok (.ldBVx 1#4)

/-- Decoding the encoding of any of the 34 instructions, with any operands, gives it back (R73, R74). -/
def Obligations.DecodeInvertsEncode : Prop :=
  ∀ i : Instr, decodeWord (encode i) = .ok i ∧ decodeBytes (encodeBytes i) = .ok (i, [])

/-- Each allocated word has one spelling: an instruction that a word decodes to encodes to that word (R74, R75). -/
def Obligations.EncodeInvertsDecode : Prop :=
  ∀ (w : Word) (i : Instr), decodeWord w = .ok i → encode i = w

/-- Decoding is by exact match: a word decodes exactly when a row of the opcode map selects it, and then to an instruction
of the one row that does (R74). That every fixed digit must match is the spec's own choice D16 (R75). -/
def Obligations.DecodeIsExactMatch : Prop :=
  opcodeTable.length = 34 ∧
  (∀ (w : Word) (i : Instr), decodeWord w = .ok i → i.row ∈ opcodeTable ∧ i.row.selects w = true) ∧
  (∀ w : Word, (∃ i, decodeWord w = .ok i) ↔ ∃ r ∈ opcodeTable, r.selects w = true) ∧
  (∀ (w : Word) (r q : Row), r ∈ opcodeTable → q ∈ opcodeTable → r.selects w = true → q.selects w = true → r = q)

/-! ### Control transfer -/

/-- RET (R101): the top entry goes to PC and SP counts down; on an empty stack StackUnderflow, CAUSE 2. What the fault
leaves (D13), its code (D14), the numbering of the slots (D12) and the reduction of PC (D5) are the spec's own choices. -/
def Obligations.RetPopsTheReturnAddress : Prop :=
  EncodedAs 0xFFFF#16 0x00EE#16 (fun _ => .ret) ∧
  (∀ (s : State) (k : Fin 16), s.sp.val = k.val + 1 → ∃ t, exec .ret s = .next t ∧
    t.pc.toNat = (s.stack[k]).toNat % 4096 ∧ t.sp.val = k.val ∧ t.stack = s.stack ∧ DataSame s t ∧ StatusSame s t) ∧
  (∀ s : State, s.sp.val = 0 → ∃ t, exec .ret s = .next t ∧ FaultTaken 2#8 s t)

/-- JP nnn (R102). -/
def Obligations.JpGoesToItsAddress : Prop :=
  EncodedAs 0xF000#16 0x1000#16 (fun w => .jp (nnnField w)) ∧
  ∀ (s : State) (nnn : Addr), ∃ t, exec (.jp nnn) s = .next t ∧ t.pc.toNat = nnn.toNat ∧ OnlyRegs [] s t

/-- CALL nnn (R103): SP counts up, the advanced PC goes into the new top entry and PC to nnn; on a full stack
StackOverflow, CAUSE 1. Slot k + 1 of the spec is index k. What the fault leaves (D13), its code (D14) and the numbering
of the slots (D12) are the spec's own choices. -/
def Obligations.CallPushesTheReturnAddress : Prop :=
  EncodedAs 0xF000#16 0x2000#16 (fun w => .call (nnnField w)) ∧
  (∀ (s : State) (nnn : Addr) (k : Fin 16), s.sp.val = k.val → ∃ t, exec (.call nnn) s = .next t ∧
    t.pc.toNat = nnn.toNat ∧ t.sp.val = k.val + 1 ∧ t.stack[k] = s.pc ∧
    (∀ j : Fin 16, j ≠ k → t.stack[j] = s.stack[j]) ∧ DataSame s t ∧ StatusSame s t) ∧
  (∀ (s : State) (nnn : Addr), s.sp.val = 16 → ∃ t, exec (.call nnn) s = .next t ∧ FaultTaken 1#8 s t)

/-- SE Vx, kk and SNE Vx, kk (R104, R105). -/
def Obligations.ImmediateSkipsCompareTheRegister : Prop :=
  EncodedAs 0xF000#16 0x3000#16 (fun w => .seVxKk (xField w) (kkField w)) ∧
  EncodedAs 0xF000#16 0x4000#16 (fun w => .sneVxKk (xField w) (kkField w)) ∧
  ∀ (s : State) (x : Nibble) (kk : Byte),
    (∃ t, exec (.seVxKk x kk) s = .next t ∧ OnlyRegs [] s t ∧
      (readV s x = kk → t.pc.toNat = (s.pc.toNat + 2) % 4096) ∧ (readV s x ≠ kk → t.pc = s.pc)) ∧
    (∃ t, exec (.sneVxKk x kk) s = .next t ∧ OnlyRegs [] s t ∧
      (readV s x ≠ kk → t.pc.toNat = (s.pc.toNat + 2) % 4096) ∧ (readV s x = kk → t.pc = s.pc))

/-- SE Vx, Vy and SNE Vx, Vy (R106, R107). The fixed low nibble (D16) and the wrap of PC (D5) are the spec's own choices. -/
def Obligations.RegisterSkipsCompareTwoRegisters : Prop :=
  EncodedAs 0xF00F#16 0x5000#16 (fun w => .seVxVy (xField w) (yField w)) ∧
  EncodedAs 0xF00F#16 0x9000#16 (fun w => .sneVxVy (xField w) (yField w)) ∧
  ∀ (s : State) (x y : Nibble),
    (∃ t, exec (.seVxVy x y) s = .next t ∧ OnlyRegs [] s t ∧
      (readV s x = readV s y → t.pc.toNat = (s.pc.toNat + 2) % 4096) ∧ (readV s x ≠ readV s y → t.pc = s.pc)) ∧
    (∃ t, exec (.sneVxVy x y) s = .next t ∧ OnlyRegs [] s t ∧
      (readV s x ≠ readV s y → t.pc.toNat = (s.pc.toNat + 2) % 4096) ∧ (readV s x = readV s y → t.pc = s.pc))

/-- JP V0, nnn (R108). That the sum is reduced modulo 4096 is the spec's own choice D5. -/
def Obligations.JpV0AddsV0 : Prop :=
  EncodedAs 0xF000#16 0xB000#16 (fun w => .jpV0Nnn (nnnField w)) ∧
  ∀ (s : State) (nnn : Addr), ∃ t, exec (.jpV0Nnn nnn) s = .next t ∧
    t.pc.toNat = (nnn.toNat + (readV s 0#4).toNat) % 4096 ∧ OnlyRegs [] s t

/-- A RET undoes a CALL: PC is the address after the CALL, the stack is as deep as before, and only the slot the CALL
used may differ (R27, R101, R103). The numbering of the slots is the spec's own choice D12. -/
def Obligations.RetAfterCallReturns : Prop :=
  ∀ (s : State) (nnn : Addr), Inv s → s.sp.val < 16 → ∃ t u, exec (.call nnn) s = .next t ∧ exec .ret t = .next u ∧
    u.pc = s.pc ∧ u.sp = s.sp ∧ (∀ j : Fin 16, j.val < s.sp.val → u.stack[j] = s.stack[j]) ∧
    DataSame s u ∧ StatusSame s u

/-! ### Register loads and the ALU -/

/-- LD Vx, kk and LD Vx, Vy (R121, R123). -/
def Obligations.LoadsSetTheRegister : Prop :=
  EncodedAs 0xF000#16 0x6000#16 (fun w => .ldVxKk (xField w) (kkField w)) ∧
  EncodedAs 0xF00F#16 0x8000#16 (fun w => .ldVxVy (xField w) (yField w)) ∧
  ∀ (s : State) (x y : Nibble) (kk : Byte),
    (∃ t, exec (.ldVxKk x kk) s = .next t ∧ readV t x = kk ∧ t.pc = s.pc ∧ OnlyRegs [x] s t) ∧
    (∃ t, exec (.ldVxVy x y) s = .next t ∧ readV t x = readV s y ∧ t.pc = s.pc ∧ OnlyRegs [x] s t)

/-- ADD Vx, kk (R122): modulo 256, and no flag: VF changes only when it is V[x] (the spec's own choice D18). -/
def Obligations.AddImmediateWrapsWithoutFlag : Prop :=
  EncodedAs 0xF000#16 0x7000#16 (fun w => .addVxKk (xField w) (kkField w)) ∧
  ∀ (s : State) (x : Nibble) (kk : Byte), ∃ t, exec (.addVxKk x kk) s = .next t ∧
    (readV t x).toNat = ((readV s x).toNat + kk.toNat) % 256 ∧ t.pc = s.pc ∧ OnlyRegs [x] s t

/-- OR, AND and XOR (R124, R125, R126), bit by bit; VF changes only when it is V[x] (the spec's own choice
D18). -/
def Obligations.LogicOperationsActBitwise : Prop :=
  EncodedAs 0xF00F#16 0x8001#16 (fun w => .or (xField w) (yField w)) ∧
  EncodedAs 0xF00F#16 0x8002#16 (fun w => .and (xField w) (yField w)) ∧
  EncodedAs 0xF00F#16 0x8003#16 (fun w => .xor (xField w) (yField w)) ∧
  ∀ (s : State) (x y : Nibble),
    (∃ t, exec (.or x y) s = .next t ∧ t.pc = s.pc ∧ OnlyRegs [x] s t ∧
      ∀ b < 8, (readV t x).getLsbD b = ((readV s x).getLsbD b || (readV s y).getLsbD b)) ∧
    (∃ t, exec (.and x y) s = .next t ∧ t.pc = s.pc ∧ OnlyRegs [x] s t ∧
      ∀ b < 8, (readV t x).getLsbD b = ((readV s x).getLsbD b && (readV s y).getLsbD b)) ∧
    (∃ t, exec (.xor x y) s = .next t ∧ t.pc = s.pc ∧ OnlyRegs [x] s t ∧
      ∀ b < 8, (readV t x).getLsbD b = ((readV s x).getLsbD b != (readV s y).getLsbD b))

/-- ADD Vx, Vy (R127). That for x = F the result overwrites the carry is the spec's own choice D17. -/
def Obligations.AddSetsCarry : Prop :=
  EncodedAs 0xF00F#16 0x8004#16 (fun w => .addVxVy (xField w) (yField w)) ∧
  ∀ (s : State) (x y : Nibble), ∃ t, exec (.addVxVy x y) s = .next t ∧
    (readV t x).toNat = ((readV s x).toNat + (readV s y).toNat) % 256 ∧
    (x ≠ regF → (readV t regF).toNat = if 255 < (readV s x).toNat + (readV s y).toNat then 1 else 0) ∧
    t.pc = s.pc ∧ OnlyRegs [x, regF] s t

/-- SUB Vx, Vy (R128): the flag f is the strict comparison. The clauses for x = F or y = F are the spec's own choice D17:
the subtraction reads what the flag write left. -/
def Obligations.SubSetsStrictGreater : Prop :=
  EncodedAs 0xF00F#16 0x8005#16 (fun w => .sub (xField w) (yField w)) ∧
  ∀ (s : State) (x y : Nibble) (f : Nat), f = (if (readV s y).toNat < (readV s x).toNat then 1 else 0) →
    ∃ t, exec (.sub x y) s = .next t ∧
      (x ≠ regF → (readV t regF).toNat = f) ∧
      (x ≠ regF → y ≠ regF → (readV t x).toNat = ((readV s x).toNat + 256 - (readV s y).toNat) % 256) ∧
      (x ≠ regF → y = regF → (readV t x).toNat = ((readV s x).toNat + 256 - f) % 256) ∧
      (x = regF → y ≠ regF → (readV t x).toNat = (f + 256 - (readV s y).toNat) % 256) ∧
      (x = y → (readV t x).toNat = 0) ∧
      t.pc = s.pc ∧ OnlyRegs [x, regF] s t

/-- SUBN Vx, Vy (R130), as SUB with the operands exchanged; the clauses for x = F or y = F are the spec's own choice D17. -/
def Obligations.SubnSetsStrictGreater : Prop :=
  EncodedAs 0xF00F#16 0x8007#16 (fun w => .subn (xField w) (yField w)) ∧
  ∀ (s : State) (x y : Nibble) (f : Nat), f = (if (readV s x).toNat < (readV s y).toNat then 1 else 0) →
    ∃ t, exec (.subn x y) s = .next t ∧
      (x ≠ regF → (readV t regF).toNat = f) ∧
      (x ≠ regF → y ≠ regF → (readV t x).toNat = ((readV s y).toNat + 256 - (readV s x).toNat) % 256) ∧
      (x ≠ regF → y = regF → (readV t x).toNat = (f + 256 - (readV s x).toNat) % 256) ∧
      (x = regF → y ≠ regF → (readV t x).toNat = ((readV s y).toNat + 256 - f) % 256) ∧
      (x = y → (readV t x).toNat = 0) ∧
      t.pc = s.pc ∧ OnlyRegs [x, regF] s t

/-- SHR and SHL (R129, R131): VF is the bit shifted out, and V[y] is not read, so y does not matter. The clauses for x = F
are the spec's own choice D17: the shift then acts on the flag. -/
def Obligations.ShiftsMoveOneBitIntoVf : Prop :=
  EncodedAs 0xF00F#16 0x8006#16 (fun w => .shr (xField w) (yField w)) ∧
  EncodedAs 0xF00F#16 0x800E#16 (fun w => .shl (xField w) (yField w)) ∧
  ∀ (s : State) (x : Nibble),
    (∃ t, (∀ y, exec (.shr x y) s = .next t) ∧ t.pc = s.pc ∧ OnlyRegs [x, regF] s t ∧
      (x ≠ regF → (readV t x).toNat = (readV s x).toNat / 2 ∧ (readV t regF).toNat = (readV s x).toNat % 2) ∧
      (x = regF → (readV t regF).toNat = 0)) ∧
    (∃ t, (∀ y, exec (.shl x y) s = .next t) ∧ t.pc = s.pc ∧ OnlyRegs [x, regF] s t ∧
      (x ≠ regF → (readV t x).toNat = 2 * (readV s x).toNat % 256 ∧ (readV t regF).toNat = (readV s x).toNat / 128) ∧
      (x = regF → (readV t regF).toNat = if 128 ≤ (readV s regF).toNat then 2 else 0))

/-- RND Vx, kk (R132, R184): the next free draw under the mask. The count of draws is the model's own (log entries 2, 3). -/
def Obligations.RndMasksTheNextDraw : Prop :=
  EncodedAs 0xF000#16 0xC000#16 (fun w => .rnd (xField w) (kkField w)) ∧
  ∀ (s : State) (x : Nibble) (kk : Byte), ∃ t, exec (.rnd x kk) s = .next t ∧
    (∀ b < 8, (readV t x).getLsbD b = ((Config.randByte s.randDraws).getLsbD b && kk.getLsbD b)) ∧
    t.randDraws = s.randDraws + 1 ∧ t.pc = s.pc ∧
    RegsSameBut [x] s t ∧ t.i = s.i ∧ TimersSame s t ∧ KeysSame s t ∧ PixelsSame s t ∧ MemSameBut [] s t ∧
    StackSame s t ∧ StatusSame s t

/-! ### The framebuffer -/

/-- CLS (R140): every pixel 0; VF is not written. -/
def Obligations.ClsClearsEveryPixel : Prop :=
  EncodedAs 0xFFFF#16 0x00E0#16 (fun _ => .cls) ∧
  ∀ s : State, ∃ t, exec .cls s = .next t ∧ (∀ (x : Fin 64) (y : Fin 32), pixel t.fb x y = false) ∧ t.pc = s.pc ∧
    RegsSameBut [] s t ∧ t.i = s.i ∧ TimersSame s t ∧ KeysSame s t ∧ MemSameBut [] s t ∧ StackSame s t ∧
    StatusSame s t ∧ t.randDraws = s.randDraws

/-- DRW Vx, Vy, n (R141, R143, R144): exactly the pixels under a 1 bit of the sprite are flipped, both coordinates wrapping,
and VF is 1 exactly when one of them was set. The bit order of a sprite byte and n = 0 are the spec's own choices (D19
with R142, D20). -/
def Obligations.DrwFlipsTheSpriteAndReportsCollision : Prop :=
  EncodedAs 0xF000#16 0xD000#16 (fun w => .drw (xField w) (yField w) (nField w)) ∧
  ∀ (s : State) (x y n : Nibble), ∃ t, exec (.drw x y n) s = .next t ∧
    (∀ (px : Fin 64) (py : Fin 32),
      (DrwHits s x y n px py → pixel t.fb px py = !pixel s.fb px py) ∧
      (¬ DrwHits s x y n px py → pixel t.fb px py = pixel s.fb px py)) ∧
    ((∃ px py, DrwHits s x y n px py ∧ pixel s.fb px py = true) → readV t regF = 1#8) ∧
    ((¬ ∃ px py, DrwHits s x y n px py ∧ pixel s.fb px py = true) → readV t regF = 0#8) ∧
    t.pc = s.pc ∧ RegsSameBut [regF] s t ∧ t.i = s.i ∧ TimersSame s t ∧ KeysSame s t ∧ MemSameBut [] s t ∧
    StackSame s t ∧ StatusSame s t ∧ t.randDraws = s.randDraws

/-- Drawing the same sprite twice at the same place restores every pixel (R141, the XOR blit is its own inverse). -/
def Obligations.DrawingTwiceRestoresTheScreen : Prop :=
  ∀ (fb : Framebuffer) (sx sy : Byte) (bytes : List Byte), bytes.length ≤ 15 →
    ∀ (x : Fin 64) (y : Fin 32),
      pixel (drawSprite sx sy bytes (drawSprite sx sy bytes fb).1).1 x y = pixel fb x y

/-! ### Keys and timers -/

/-- SKP and SKNP (R151, R152). That the key is the low nibble of V[x] is the spec's own choice D21 (R150), as
the wrap of PC is (D5). -/
def Obligations.KeySkipsTestTheKeyTable : Prop :=
  EncodedAs 0xF0FF#16 0xE09E#16 (fun w => .skp (xField w)) ∧
  EncodedAs 0xF0FF#16 0xE0A1#16 (fun w => .sknp (xField w)) ∧
  ∀ (s : State) (x k : Nibble), k.toNat = (readV s x).toNat % 16 →
    (∃ t, exec (.skp x) s = .next t ∧ OnlyRegs [] s t ∧
      (readKey s k = true → t.pc.toNat = (s.pc.toNat + 2) % 4096) ∧ (readKey s k = false → t.pc = s.pc)) ∧
    (∃ t, exec (.sknp x) s = .next t ∧ OnlyRegs [] s t ∧
      (readKey s k = false → t.pc.toNat = (s.pc.toNat + 2) % 4096) ∧ (readKey s k = true → t.pc = s.pc))

/-- LD Vx, DT; LD DT, Vx; LD ST, Vx (R153, R155, R156). -/
def Obligations.TimerLoadsMoveTheByte : Prop :=
  EncodedAs 0xF0FF#16 0xF007#16 (fun w => .ldVxDt (xField w)) ∧
  EncodedAs 0xF0FF#16 0xF015#16 (fun w => .ldDtVx (xField w)) ∧
  EncodedAs 0xF0FF#16 0xF018#16 (fun w => .ldStVx (xField w)) ∧
  ∀ (s : State) (x : Nibble),
    (∃ t, exec (.ldVxDt x) s = .next t ∧ readV t x = s.dt ∧ t.pc = s.pc ∧ OnlyRegs [x] s t) ∧
    (∃ t, exec (.ldDtVx x) s = .next t ∧ t.dt = readV s x ∧ t.st = s.st ∧ t.pc = s.pc ∧ RegsSameBut [] s t ∧
      t.i = s.i ∧ KeysSame s t ∧ PixelsSame s t ∧ MemSameBut [] s t ∧ StackSame s t ∧ StatusSame s t ∧
      t.randDraws = s.randDraws) ∧
    (∃ t, exec (.ldStVx x) s = .next t ∧ t.st = readV s x ∧ t.dt = s.dt ∧ t.pc = s.pc ∧ RegsSameBut [] s t ∧
      t.i = s.i ∧ KeysSame s t ∧ PixelsSame s t ∧ MemSameBut [] s t ∧ StackSame s t ∧ StatusSame s t ∧
      t.randDraws = s.randDraws)

/-- LD Vx, K (R154): the instruction begins a wait for register x and writes nothing else, V[x] included. The details of
the wait are the spec's own choice D22. -/
def Obligations.KeyWaitBegins : Prop :=
  EncodedAs 0xF0FF#16 0xF00A#16 (fun w => .ldVxK (xField w)) ∧
  ∀ (s : State) (x : Nibble), ∃ t, exec (.ldVxK x) s = .next t ∧ t.run = .awaitingKey x ∧ t.cause = s.cause ∧
    t.pc = s.pc ∧ StackSame s t ∧ DataSame s t

/-- While the block waits for a key a step writes nothing and the driver gets WAIT (R80, R154; the spec's own choice D22),
and only `key_down` or `reset` ends the wait (R188). -/
def Obligations.OnlyKeyDownOrResetEndsTheWait : Prop :=
  ∀ (s : State) (x : Nibble), s.run = .awaitingKey x →
    step s = .next s ∧
    (∀ (font : Font) (rand : Byte), transact font (.step rand) s = .next (s, .stepped .wait)) ∧
    (∀ (font : Font) (a : Transaction) (t : State) (r : Response), transact font a s = .next (t, r) →
      t.run = .awaitingKey x ∨ a = .reset ∨ ∃ k, a = .keyDown k)

/-- `key_down` and `key_up` (R182): the key's bit and nothing else, unless `key_down` finds a wait, which it completes with
V[x] <- k and RUN <- RUNNING, PC as it was (R183; the spec's own choice D22). -/
def Obligations.KeyEventsWriteTheKeyTable : Prop :=
  ∀ (font : Font) (s : State) (k : Nibble),
    (∃ t, transact font (.keyUp k) s = .next (t, .done) ∧ readKey t k = false ∧
      (∀ l, l ≠ k → readKey t l = readKey s l) ∧ t = { s with key := t.key }) ∧
    (∃ t, transact font (.keyDown k) s = .next (t, .done) ∧ readKey t k = true ∧
      (∀ l, l ≠ k → readKey t l = readKey s l) ∧
      ((∀ x, s.run ≠ .awaitingKey x) → t = { s with key := t.key }) ∧
      (∀ x, s.run = .awaitingKey x → (readV t x).toNat = k.toNat ∧ RegsSameBut [x] s t ∧
        t = { s with key := t.key, v := t.v, run := .running }))

/-- `tick_delay` and `tick_sound` (R180): one down, 0 stays 0, in every RUN state, and nothing else changes. That
FAULTED is a RUN state in which they act is the spec's own choice D13. -/
def Obligations.TicksCountDownToZero : Prop :=
  ∀ (font : Font) (s : State),
    (∃ t, transact font .tickDelay s = .next (t, .done) ∧ t.dt.toNat = s.dt.toNat - 1 ∧ t = { s with dt := t.dt }) ∧
    (∃ t, transact font .tickSound s = .next (t, .done) ∧ t.st.toNat = s.st.toNat - 1 ∧ t = { s with st := t.st })

/-! ### Index register and memory -/

/-- LD I, nnn; ADD I, Vx; LD F, Vx (R160, R161, R162). That I keeps 16 bits (D4), the font's base and height (D7), and that
VF is not written (D18) are the spec's own choices. -/
def Obligations.IndexLoadsSetI : Prop :=
  EncodedAs 0xF000#16 0xA000#16 (fun w => .ldINnn (nnnField w)) ∧
  EncodedAs 0xF0FF#16 0xF01E#16 (fun w => .addIVx (xField w)) ∧
  EncodedAs 0xF0FF#16 0xF029#16 (fun w => .ldFVx (xField w)) ∧
  ∀ (s : State) (x : Nibble) (nnn : Addr),
    (∃ t, exec (.ldINnn nnn) s = .next t ∧ t.i.toNat = nnn.toNat ∧ t = { s with i := t.i }) ∧
    (∃ t, exec (.addIVx x) s = .next t ∧ t.i.toNat = (s.i.toNat + (readV s x).toNat) % 65536 ∧
      t = { s with i := t.i }) ∧
    (∃ t, exec (.ldFVx x) s = .next t ∧ t.i.toNat = 5 * (readV s x).toNat ∧ t = { s with i := t.i })

/-- LD B, Vx (R163): hundreds, tens and units at I, I + 1 and I + 2, each address modulo 4096. -/
def Obligations.BcdStoresThreeDigits : Prop :=
  EncodedAs 0xF0FF#16 0xF033#16 (fun w => .ldBVx (xField w)) ∧
  (∀ (s : State) (j : Nat), dataAddr s j = (s.i.toNat + j) % 4096) ∧
  ∀ (s : State) (x : Nibble), memWf s.mem = true → ∃ t, exec (.ldBVx x) s = .next t ∧
    (readMem t (dataAddr s 0)).toNat = (readV s x).toNat / 100 ∧
    (readMem t (dataAddr s 1)).toNat = (readV s x).toNat / 10 % 10 ∧
    (readMem t (dataAddr s 2)).toNat = (readV s x).toNat % 10 ∧
    t.pc = s.pc ∧ OnlyMem [dataAddr s 0, dataAddr s 1, dataAddr s 2] s t

/-- LD [I], Vx (R164): V0 .. Vx at I on, each address modulo 4096 (the spec's own choice D3); I is unchanged (its own
choice D18). -/
def Obligations.BlockStoreWritesV0ToVx : Prop :=
  EncodedAs 0xF0FF#16 0xF055#16 (fun w => .ldMIVx (xField w)) ∧
  (∀ (s : State) (j : Nat), dataAddr s j = (s.i.toNat + j) % 4096) ∧
  ∀ (s : State) (x : Nibble), memWf s.mem = true → ∃ t, exec (.ldMIVx x) s = .next t ∧
    (∀ r : Nibble, r.toNat ≤ x.toNat → readMem t (dataAddr s r.toNat) = readV s r) ∧
    t.pc = s.pc ∧ OnlyMem ((List.range (x.toNat + 1)).map (dataAddr s)) s t

/-- LD Vx, [I] (R165): V0 .. Vx from I on, each address modulo 4096 (the spec's own choice D3); the other registers
and I are unchanged (its own choice D18). -/
def Obligations.BlockLoadReadsV0ToVx : Prop :=
  EncodedAs 0xF0FF#16 0xF065#16 (fun w => .ldVxMI (xField w)) ∧
  ∀ (s : State) (x : Nibble), ∃ t, exec (.ldVxMI x) s = .next t ∧
    (∀ r : Nibble, r.toNat ≤ x.toNat → readV t r = readMem s ((s.i.toNat + r.toNat) % 4096)) ∧
    (∀ r : Nibble, x.toNat < r.toNat → readV t r = readV s r) ∧ t = { s with v := t.v }

/-- A byte written is what is read there, and every other byte is unchanged (R55); a fetch reads the high byte first (R52).
That the address wraps (R51, D3) and that a fetch sees the store at once (R62, D33) are the spec's own choices. -/
def Obligations.MemoryReadsTheLastWrite : Prop :=
  ∀ (s : State) (a b : Nat) (v : Byte), memWf s.mem = true →
    readMem (writeMem s a v) a = v ∧
    (a % 4096 ≠ b % 4096 → readMem (writeMem s a v) b = readMem s b) ∧
    (fetchAt (writeMem s a v) b).toNat =
      256 * (if a % 4096 = b % 4096 then v else readMem s b).toNat +
        (if a % 4096 = (b + 1) % 4096 then v else readMem s (b + 1)).toNat

/-! ### The step -/

/-- When the two bytes at PC decode to an instruction, a step of a RUNNING block is that instruction in the state whose PC
is advanced by 2 modulo 4096 (the spec's own choice D5) and which is otherwise the same (R80, R81, R82, R83). -/
def Obligations.StepRunsTheDecodedInstruction : Prop :=
  ∀ (s : State) (i : Instr), s.run = .running →
    decodeBytes [readMem s s.pc.toNat, readMem s (s.pc.toNat + 1)] = .ok (i, []) →
    step s = exec i (advancePc s) ∧ (advancePc s).pc.toNat = (s.pc.toNat + 2) % 4096 ∧
    advancePc s = { s with pc := (advancePc s).pc }

/-- A word that no row of the opcode map selects is a no-op: the advance of PC is the step's only effect, and it raises
nothing (R76, with the spec's own choice D16 of which words these are). -/
def Obligations.UnallocatedWordIsANop : Prop :=
  ∀ s : State, s.run = .running → (∀ r ∈ opcodeTable, r.selects (fetchWord s) = false) →
    ∃ t, step s = .next t ∧ t.pc.toNat = (s.pc.toNat + 2) % 4096 ∧ t = { s with pc := t.pc }

/-- Faults are precise: a CALL on a full stack and a RET on an empty one leave the state before the step but for RUN and
CAUSE, PC back at the instruction (R84, R172; the spec's own choice D13), and the driver gets FAULT(cause) (R80). -/
def Obligations.StackFaultsArePrecise : Prop :=
  ∀ (font : Font) (s : State) (rand : Byte), s.run = .running → s.pc.toNat < 4096 →
    (∀ nnn, decodeWord (fetchWord s) = .ok (.call nnn) → s.sp.val = 16 →
      step s = .next { s with run := .faulted, cause := 1#8 } ∧
      transact font (.step rand) s = .next ({ s with run := .faulted, cause := 1#8 }, .stepped (.fault 1#8))) ∧
    (decodeWord (fetchWord s) = .ok .ret → s.sp.val = 0 →
      step s = .next { s with run := .faulted, cause := 2#8 } ∧
      transact font (.step rand) s = .next ({ s with run := .faulted, cause := 2#8 }, .stepped (.fault 2#8)))

/-- A latched fault is final until reset: a step answers it and writes nothing, and no other transaction changes RUN or
CAUSE (R173; the spec's own choice D13). That `step` answers it as a fault outcome is the model's (log entry 5). -/
def Obligations.OnlyResetLeavesAFault : Prop :=
  ∀ (s : State), s.run = .faulted →
    step s = .fault (.latched s.cause) ∧
    (∀ (font : Font) (rand : Byte), transact font (.step rand) s = .next (s, .stepped (.fault s.cause))) ∧
    (∀ (font : Font) (a : Transaction) (t : State) (r : Response), a ≠ .reset → transact font a s = .next (t, r) →
      t.run = .faulted ∧ t.cause = s.cause)

/-- Every instruction completes in every state, and only CALL on a full stack and RET on an empty one take a fault, with
their own cause and no other (R83, R174, R175). The codes are the spec's own choice D14. -/
def Obligations.OnlyCallAndRetFault : Prop :=
  ∀ (i : Instr) (s : State), ∃ t, exec i s = .next t ∧
    (t.run = .faulted → s.run = .faulted ∨ ((∃ nnn, i = .call nnn) ∧ s.sp.val = 16 ∧ t.cause = 1#8) ∨
      (i = .ret ∧ s.sp.val = 0 ∧ t.cause = 2#8)) ∧
    (t.cause ≠ s.cause → t.run = .faulted)

/-- "Only Cxkk reads `rand`": two steps of one state with different random bytes agree unless the instruction is RND
(R83, R184). -/
def Obligations.OnlyRndReadsTheRandomByte : Prop :=
  ∀ (s : State) (a b : Byte), (∀ x kk, decodeWord (fetchWord s) ≠ .ok (.rnd x kk)) → stepWith a s = stepWith b s

/-- `step` is `step(rand)` with the free draw as `rand`: the same next state but for the count of draws, which only RND
advances, by one; and in a latched fault both answer the fault (R80, R132, R184; log entries 2, 3 and 5). -/
def Obligations.StepIsStepWithTheFreeDraw : Prop :=
  ∀ s : State,
    (s.run ≠ .faulted → ∃ t u, step s = .next t ∧
      stepWith (Config.randByte s.randDraws) s = .next (u, stepResult u) ∧ t = { u with randDraws := t.randDraws } ∧
      ((∃ x kk, s.run = .running ∧ decodeWord (fetchWord s) = .ok (.rnd x kk)) → t.randDraws = s.randDraws + 1) ∧
      ((∀ x kk, s.run = .running → decodeWord (fetchWord s) ≠ .ok (.rnd x kk)) →
        t = u ∧ t.randDraws = s.randDraws)) ∧
    (∀ rand, s.run = .faulted → step s = .fault (.latched s.cause) ∧ stepWith rand s = .next (s, .fault s.cause))

/-- A jump to itself leaves the whole state as it is (R102; as the end of a run, R204 (a), the spec's own choice D39). -/
def Obligations.SelfJumpChangesNothing : Prop :=
  ∀ s : State, s.pc.toNat < 4096 → SelfJump s → step s = .next s

/-- The state `withFetchWord` makes runs exactly the word it was given (the model's convention, log entry 9). -/
def Obligations.WithFetchWordRunsTheWord : Prop :=
  ∀ (s : State) (w : Nat) (i : Instr), memWf s.mem = true → decodeTableWord 16 w = some i →
    step (s.withFetchWord 16 w) = exec i (advancePc (s.withFetchWord 16 w))

/-! ### Reset, load and the read ports -/

/-- `reset` (R35, R200), for every `FONT`: every component at its reset value. The values the source does not give (stack
slots, memory outside the font, keys, RUN, CAUSE) are the spec's own choices D10 and D28; the count of draws is the
model's (log entry 2). -/
def Obligations.ResetSetsEveryComponent : Prop :=
  ∀ (font : Font) (s : State), ∃ t, transact font .reset s = .next (t, .done) ∧
    (∀ x : Nibble, readV t x = 0#8) ∧ t.i = 0#16 ∧ t.pc = 0#16 ∧ t.sp.val = 0 ∧
    (∀ j : Fin 16, t.stack[j] = 0#16) ∧ t.dt = 0#8 ∧ t.st = 0#8 ∧
    (∀ (x : Fin 64) (y : Fin 32), pixel t.fb x y = false) ∧ (∀ k : Nibble, readKey t k = false) ∧
    t.run = .running ∧ t.cause = 0#8 ∧
    (∀ a : Fin 80, readMem t a.val = font[a]) ∧ (∀ a : Nat, 80 ≤ a → a < 4096 → readMem t a = 0#8)

/-- The model's reset state is the machine's with the default `FONT`, which memory then reads as, byte for byte the table of
R57 (log entry 1; the spec gives the bytes from general knowledge, D8). -/
def Obligations.ResetStateHoldsTheDefaultFont : Prop :=
  resetWith fontDefault = State.reset ∧ State.reset.mem = [] ∧
  (∀ a : Fin 80, readMem State.reset a.val = fontDefault[a]) ∧
  (List.range 80).map (readMem State.reset) =
    ([0xF0, 0x90, 0x90, 0x90, 0xF0] : List Byte) ++ [0x20, 0x60, 0x20, 0x20, 0x70]
      ++ [0xF0, 0x10, 0xF0, 0x80, 0xF0] ++ [0xF0, 0x10, 0xF0, 0x10, 0xF0]
      ++ [0x90, 0x90, 0xF0, 0x10, 0x10] ++ [0xF0, 0x80, 0xF0, 0x10, 0xF0]
      ++ [0xF0, 0x80, 0xF0, 0x90, 0xF0] ++ [0xF0, 0x10, 0x20, 0x40, 0x40]
      ++ [0xF0, 0x90, 0xF0, 0x90, 0xF0] ++ [0xF0, 0x90, 0xF0, 0x10, 0xF0]
      ++ [0xF0, 0x90, 0xF0, 0x90, 0x90] ++ [0xE0, 0x90, 0xE0, 0x90, 0xE0]
      ++ [0xF0, 0x80, 0x80, 0x80, 0xF0] ++ [0xE0, 0x90, 0x90, 0x90, 0xE0]
      ++ [0xF0, 0x80, 0xF0, 0x80, 0xF0] ++ [0xF0, 0x80, 0xF0, 0x80, 0x80]

/-- `load` (R58): at most 3584 bytes go to 0x200 on, PC to 0x200, and nothing else changes, in every RUN state; a longer
program changes nothing. That nothing else changes is the spec's own choice (D15, D32). -/
def Obligations.LoadCopiesTheProgram : Prop :=
  ∀ (font : Font) (s : State) (bytes : List Byte), memWf s.mem = true →
    (bytes.length ≤ 3584 → ∃ t, transact font (.load bytes) s = .next (t, .loaded .ok) ∧ t.pc = 0x200#16 ∧
      (∀ j, (h : j < bytes.length) → readMem t (0x200 + j) = bytes[j]) ∧
      (∀ a, a < 4096 → (a < 0x200 ∨ 0x200 + bytes.length ≤ a) → readMem t a = readMem s a) ∧
      t = { s with pc := t.pc, mem := t.mem }) ∧
    (3584 < bytes.length → transact font (.load bytes) s = .next (s, .loaded .oversizeProgram))

/-- `is_set` gives the pixel on the screen and is refused off it; `diag` shows the registers and status (R185, R186; the
spec's own choices D27 and D35); neither writes anything. -/
def Obligations.ReadPortsWriteNothing : Prop :=
  ∀ (font : Font) (s : State),
    (∀ (x : Fin 64) (y : Fin 32), transact font (.isSet x.val y.val) s = .next (s, .pixel (pixel s.fb x y))) ∧
    (∀ x y : Nat, (64 ≤ x ∨ 32 ≤ y) → transact font (.isSet x y) s = .refused (.pixelOutsideScreen x y)) ∧
    (∃ d, transact font .diag s = .next (s, .diag d) ∧ d.v = s.v ∧ d.i = s.i ∧ d.pc = s.pc ∧ d.sp.toNat = s.sp.val ∧
      d.dt = s.dt ∧ d.st = s.st ∧ d.run = s.run ∧ d.cause = s.cause)

/-! ### Whole-machine rules and invariants -/

/-- Every instruction changes no general register but those its rule writes, and no byte of memory but those it stores
to (R36, R133, R166, and R15 with the spec's own choice D18); so VF changes only under its six
instructions or as the register x. -/
def Obligations.ExecWritesOnlyItsRegistersAndBytes : Prop :=
  ∀ (i : Instr) (s t : State), memWf s.mem = true → exec i s = .next t →
    RegsSameBut (writtenRegs i) s t ∧ MemSameBut (storedAddrs i s) s t

/-- I is written by Annn, Fx1E and Fx29 alone (R24), the stack and SP by 2nnn and 00EE (R25, R26), DT by Fx15 and ST by
Fx18 (R28), the framebuffer by 00E0 and Dxyn (R29), the key table by no instruction (R32). That nothing else is
written is R15 with the spec's own choice D18. -/
def Obligations.SpecialRegistersHaveOnlyTheirWriters : Prop :=
  ∀ (i : Instr) (s t : State), exec i s = .next t →
    (t.i ≠ s.i → (∃ nnn, i = .ldINnn nnn) ∨ ∃ x, i = .addIVx x ∨ i = .ldFVx x) ∧
    (¬ StackSame s t → i = .ret ∨ ∃ nnn, i = .call nnn) ∧
    (t.dt ≠ s.dt → ∃ x, i = .ldDtVx x) ∧ (t.st ≠ s.st → ∃ x, i = .ldStVx x) ∧
    (¬ PixelsSame s t → i = .cls ∨ ∃ x y n, i = .drw x y n) ∧ KeysSame s t

/-- The invariant holds at reset (R35; RUN and CAUSE there are the spec's own choice D28). -/
def Obligations.ResetMeetsTheInvariant : Prop := Inv State.reset

/-- Every step keeps the invariant: PC and the stack slots inside the address space (R14, R23), CAUSE in agreement with
RUN (R31), memory in canonical form. The bounds rest on the spec's own choice D5, CAUSE and RUN on D13 and D14, the
canonical form on log entry 1. -/
def Obligations.StepKeepsTheInvariant : Prop :=
  ∀ s t : State, Inv s → step s = .next t → Inv t

/-- Every transaction keeps the invariant, from every state that meets it and with any `FONT`, and reset gives it; so every
state that any list of transactions reaches from reset meets it (R10, R11, R14, R23, R31; the spec's own choices D2, D5,
D13, D14, and log entry 1). -/
def Obligations.EveryReachableStateMeetsTheInvariant : Prop :=
  (∀ font : Font, Inv (resetWith font)) ∧
  (∀ (font : Font) (a : Transaction) (s t : State) (r : Response), Inv s → transact font a s = .next (t, r) → Inv t) ∧
  (∀ (font : Font) (ts : List Transaction) (t : State), transactAll font ts (resetWith font) = .next t → Inv t)

/-! ### The end of a run -/

/-- The end of a run is the first state between its transactions that meets one of the three conditions, and a run that
has none meets none of them anywhere (R204, the spec's own choice D39; that a `key_down` is offered when it is in the list
of transactions still to come is log entry 15). -/
def Obligations.RunEndsAtItsFirstEndState : Prop :=
  ∀ (font : Font) (ts : List Transaction) (s : State),
    (∀ t, endOfRun font ts s = some t ↔ ∃ n, transactAll font (ts.take n) s = .next t ∧ AtEnd (ts.drop n) t ∧
      ∀ m < n, ∃ u, transactAll font (ts.take m) s = .next u ∧ ¬ AtEnd (ts.drop m) u) ∧
    (endOfRun font ts s = none ↔ ∀ n t, transactAll font (ts.take n) s = .next t → ¬ AtEnd (ts.drop n) t)

/-- After its end a run goes nowhere: every further step leaves the state as it is, and until a `load` or a `reset` nothing
but ticks and key events changes anything, and they only the timers and the keys (R204, the spec's own choice D39; log
entry 15). -/
def Obligations.NothingButTicksAndKeysAfterTheEnd : Prop :=
  ∀ (font : Font) (rest : List Transaction) (s : State), s.pc.toNat < 4096 → AtEnd rest s →
    (∀ rands : List Byte, transactAll font (rands.map .step) s = .next s) ∧
    (∀ t, (∀ a ∈ rest, a ≠ .reset ∧ ∀ bytes, a ≠ .load bytes) → transactAll font rest s = .next t →
      t = { s with dt := t.dt, st := t.st, key := t.key } ∧ AtEnd [] t)
end

