-- ==== Sys2Proof/Laws/Decode.lean ====
section
/-! SUPPORT. The fields of a word, of a word built from fields, and of a masked word; two words with the same fields are
the same word. -/

namespace Sys2Proof

/-! ### Fields as numbers -/

theorem opField_toNat (w : Word) : (opField w).toNat = w.toNat / 4096 := by
  have := w.isLt
  simp only [opField, BitVec.extractLsb'_toNat, Nat.shiftRight_eq_div_pow]
  omega

theorem xField_toNat (w : Word) : (xField w).toNat = w.toNat / 256 % 16 := by
  simp only [xField, BitVec.extractLsb'_toNat, Nat.shiftRight_eq_div_pow]

theorem yField_toNat (w : Word) : (yField w).toNat = w.toNat / 16 % 16 := by
  simp only [yField, BitVec.extractLsb'_toNat, Nat.shiftRight_eq_div_pow]

theorem nField_toNat (w : Word) : (nField w).toNat = w.toNat % 16 := by
  simp only [nField, BitVec.extractLsb'_toNat, Nat.shiftRight_eq_div_pow]
  omega

theorem kkField_toNat (w : Word) : (kkField w).toNat = w.toNat % 256 := by
  simp only [kkField, BitVec.extractLsb'_toNat, Nat.shiftRight_eq_div_pow]
  omega

theorem nnnField_toNat (w : Word) : (nnnField w).toNat = w.toNat % 4096 := by
  simp only [nnnField, BitVec.extractLsb'_toNat, Nat.shiftRight_eq_div_pow]
  omega

/-! ### Words from fields, as numbers -/

theorem ofNibbles_toNat (a b c d : Nibble) :
    (ofNibbles a b c d).toNat = a.toNat * 4096 + b.toNat * 256 + c.toNat * 16 + d.toNat := by
  have := a.isLt; have := b.isLt; have := c.isLt; have := d.isLt
  simp only [ofNibbles, BitVec.toNat_ofNat]
  omega

theorem ofNibblesByte_toNat (a b : Nibble) (kk : Byte) :
    (ofNibblesByte a b kk).toNat = a.toNat * 4096 + b.toNat * 256 + kk.toNat := by
  have := a.isLt; have := b.isLt; have := kk.isLt
  simp only [ofNibblesByte, BitVec.toNat_ofNat]
  omega

theorem ofNibbleAddr_toNat (a : Nibble) (nnn : Addr) :
    (ofNibbleAddr a nnn).toNat = a.toNat * 4096 + nnn.toNat := by
  have := a.isLt; have := nnn.isLt
  simp only [ofNibbleAddr, BitVec.toNat_ofNat]
  omega

/-! ### Fields of a word from nibbles -/

@[simp] theorem opField_ofNibbles (a b c d : Nibble) : opField (ofNibbles a b c d) = a := by
  have := a.isLt; have := b.isLt; have := c.isLt; have := d.isLt
  apply BitVec.eq_of_toNat_eq; rw [opField_toNat, ofNibbles_toNat]; omega

@[simp] theorem xField_ofNibbles (a b c d : Nibble) : xField (ofNibbles a b c d) = b := by
  have := a.isLt; have := b.isLt; have := c.isLt; have := d.isLt
  apply BitVec.eq_of_toNat_eq; rw [xField_toNat, ofNibbles_toNat]; omega

@[simp] theorem yField_ofNibbles (a b c d : Nibble) : yField (ofNibbles a b c d) = c := by
  have := a.isLt; have := b.isLt; have := c.isLt; have := d.isLt
  apply BitVec.eq_of_toNat_eq; rw [yField_toNat, ofNibbles_toNat]; omega

@[simp] theorem nField_ofNibbles (a b c d : Nibble) : nField (ofNibbles a b c d) = d := by
  have := a.isLt; have := b.isLt; have := c.isLt; have := d.isLt
  apply BitVec.eq_of_toNat_eq; rw [nField_toNat, ofNibbles_toNat]; omega

/-! ### Fields of a word from two nibbles and a byte -/

@[simp] theorem opField_ofNibblesByte (a b : Nibble) (kk : Byte) : opField (ofNibblesByte a b kk) = a := by
  have := a.isLt; have := b.isLt; have := kk.isLt
  apply BitVec.eq_of_toNat_eq; rw [opField_toNat, ofNibblesByte_toNat]; omega

@[simp] theorem xField_ofNibblesByte (a b : Nibble) (kk : Byte) : xField (ofNibblesByte a b kk) = b := by
  have := a.isLt; have := b.isLt; have := kk.isLt
  apply BitVec.eq_of_toNat_eq; rw [xField_toNat, ofNibblesByte_toNat]; omega

@[simp] theorem kkField_ofNibblesByte (a b : Nibble) (kk : Byte) : kkField (ofNibblesByte a b kk) = kk := by
  have := a.isLt; have := b.isLt; have := kk.isLt
  apply BitVec.eq_of_toNat_eq; rw [kkField_toNat, ofNibblesByte_toNat]; omega

/-! ### Fields of a word from a nibble and an address -/

@[simp] theorem opField_ofNibbleAddr (a : Nibble) (nnn : Addr) : opField (ofNibbleAddr a nnn) = a := by
  have := a.isLt; have := nnn.isLt
  apply BitVec.eq_of_toNat_eq; rw [opField_toNat, ofNibbleAddr_toNat]; omega

@[simp] theorem nnnField_ofNibbleAddr (a : Nibble) (nnn : Addr) : nnnField (ofNibbleAddr a nnn) = nnn := by
  have := a.isLt; have := nnn.isLt
  apply BitVec.eq_of_toNat_eq; rw [nnnField_toNat, ofNibbleAddr_toNat]; omega

/-! ### Masked words -/

/-- Two words whose first two nibbles and low bytes agree are the same word. -/
theorem word_ext {w u : Word} (h1 : opField w = opField u) (h2 : xField w = xField u) (h3 : kkField w = kkField u) :
    w = u := by
  have e1 := congrArg BitVec.toNat h1
  have e2 := congrArg BitVec.toNat h2
  have e3 := congrArg BitVec.toNat h3
  rw [opField_toNat, opField_toNat] at e1
  rw [xField_toNat, xField_toNat] at e2
  rw [kkField_toNat, kkField_toNat] at e3
  apply BitVec.eq_of_toNat_eq
  omega

theorem opField_and (w m : Word) : opField (w &&& m) = opField w &&& opField m := BitVec.extractLsb'_and
theorem xField_and (w m : Word) : xField (w &&& m) = xField w &&& xField m := BitVec.extractLsb'_and
theorem kkField_and (w m : Word) : kkField (w &&& m) = kkField w &&& kkField m := BitVec.extractLsb'_and

theorem nibble_and_F (a : Nibble) : a &&& 0xF#4 = a := by revert a; decide
theorem nibble_and_0 (a : Nibble) : a &&& 0x0#4 = 0x0#4 := by revert a; decide
theorem byte_and_FF (b : Byte) : b &&& 0xFF#8 = b := by revert b; decide
theorem byte_and_00 (b : Byte) : b &&& 0x00#8 = 0x00#8 := by revert b; decide

/-- The low nibble of the low byte. -/
theorem kkField_and_0F (w : Word) : kkField w &&& 0x0F#8 = (nField w).setWidth 8 := by
  have h : ∀ b : Byte, b &&& 0x0F#8 = (b.setWidth 4).setWidth 8 := by decide
  have e : (kkField w).setWidth 4 = nField w := by
    apply BitVec.eq_of_toNat_eq
    rw [BitVec.toNat_setWidth, kkField_toNat, nField_toNat]
    omega
  rw [h, e]

/-- What a row with mask 0xF000 looks at. -/
theorem mask_op (w : Word) {v : Word} (hx : xField v = 0#4) (hk : kkField v = 0#8) :
    w &&& 0xF000#16 = v ↔ opField w = opField v := by
  constructor
  · intro h
    have := congrArg opField h
    rwa [opField_and, show opField 0xF000#16 = 0xF#4 from rfl, nibble_and_F] at this
  · intro h
    refine word_ext ?_ ?_ ?_
    · rw [opField_and, show opField 0xF000#16 = 0xF#4 from rfl, nibble_and_F, h]
    · rw [xField_and, show xField 0xF000#16 = 0x0#4 from rfl, nibble_and_0, hx]
    · rw [kkField_and, show kkField 0xF000#16 = 0x00#8 from rfl, byte_and_00, hk]

/-- What a row with mask 0xF00F looks at. -/
theorem mask_opN (w : Word) {v : Word} (hx : xField v = 0#4) (hk : kkField v = (nField v).setWidth 8) :
    w &&& 0xF00F#16 = v ↔ opField w = opField v ∧ nField w = nField v := by
  constructor
  · intro h
    have h1 := congrArg opField h
    have h2 := congrArg kkField h
    rw [opField_and, show opField 0xF00F#16 = 0xF#4 from rfl, nibble_and_F] at h1
    rw [kkField_and, show kkField 0xF00F#16 = 0x0F#8 from rfl, kkField_and_0F, hk] at h2
    refine ⟨h1, ?_⟩
    have := congrArg (BitVec.setWidth 4) h2
    simpa using this
  · rintro ⟨h1, h2⟩
    refine word_ext ?_ ?_ ?_
    · rw [opField_and, show opField 0xF00F#16 = 0xF#4 from rfl, nibble_and_F, h1]
    · rw [xField_and, show xField 0xF00F#16 = 0x0#4 from rfl, nibble_and_0, hx]
    · rw [kkField_and, show kkField 0xF00F#16 = 0x0F#8 from rfl, kkField_and_0F, hk, h2]

/-- What a row with mask 0xF0FF looks at. -/
theorem mask_opKk (w : Word) {v : Word} (hx : xField v = 0#4) :
    w &&& 0xF0FF#16 = v ↔ opField w = opField v ∧ kkField w = kkField v := by
  constructor
  · intro h
    have h1 := congrArg opField h
    have h2 := congrArg kkField h
    rw [opField_and, show opField 0xF0FF#16 = 0xF#4 from rfl, nibble_and_F] at h1
    rw [kkField_and, show kkField 0xF0FF#16 = 0xFF#8 from rfl, byte_and_FF] at h2
    exact ⟨h1, h2⟩
  · rintro ⟨h1, h2⟩
    refine word_ext ?_ ?_ ?_
    · rw [opField_and, show opField 0xF0FF#16 = 0xF#4 from rfl, nibble_and_F, h1]
    · rw [xField_and, show xField 0xF0FF#16 = 0x0#4 from rfl, nibble_and_0, hx]
    · rw [kkField_and, show kkField 0xF0FF#16 = 0xFF#8 from rfl, byte_and_FF, h2]

/-- The bytes of a word give the word back, whatever follows them (R52). -/
theorem wordOfBytes_bytes (w : Word) : wordOfBytes (w.extractLsb' 8 8) (w.extractLsb' 0 8) = w := by
  have : (w.extractLsb' 8 8 ++ w.extractLsb' 0 8 : Word) = w.extractLsb' 0 16 :=
    BitVec.extractLsb'_append_extractLsb'_eq_extractLsb' rfl
  exact this.trans BitVec.extractLsb'_eq_self

/-! ### Inversion -/

/-- One step down a chain of cases of the decoder. -/
theorem ite_eq_ok {p : Prop} [Decidable p] {a b : Except DecodeReject Instr} {i : Instr}
    (h : (if p then a else b) = .ok i) : (p ∧ a = .ok i) ∨ (¬p ∧ b = .ok i) := by
  by_cases hp : p
  · exact .inl ⟨hp, by rwa [if_pos hp] at h⟩
  · exact .inr ⟨hp, by rwa [if_neg hp] at h⟩

/-- Decoding two bytes and nothing after them is decoding their word. -/
theorem decodeBytes_pair {hi lo : Byte} {i : Instr} :
    decodeBytes [hi, lo] = .ok (i, []) ↔ decodeWord (wordOfBytes hi lo) = .ok i := by
  simp only [decodeBytes]
  cases decodeWord (wordOfBytes hi lo) <;> simp

/-- The table's numbering of a 16-bit word's bits is the word's own. -/
theorem decodeTableWord_eq_some {w : Nat} {i : Instr} :
    decodeTableWord 16 w = some i ↔ decodeWord (BitVec.ofNat 16 (w % 2 ^ 16)) = .ok i := by
  simp only [decodeTableWord, bytesOfWord, decodeBytes, wordOfBytes_bytes]
  cases decodeWord (BitVec.ofNat 16 (w % 2 ^ 16)) <;> simp

end Sys2Proof
end

