-- ==== Sys2Proof/Laws/State.lean ====
section
/-! SUPPORT. One lemma for each field of State under each update, true by `rfl`, so that no later proof unfolds a record
update; and the same for the few updates of more than one field. -/

namespace Sys2Proof.Machine

variable (s : State)

/-! ### `writeV` -/

@[simp] theorem writeV_v (x : Nibble) (b : Byte) : (writeV s x b).v = s.v.set x.toNat b x.isLt := rfl
@[simp] theorem writeV_i (x : Nibble) (b : Byte) : (writeV s x b).i = s.i := rfl
@[simp] theorem writeV_pc (x : Nibble) (b : Byte) : (writeV s x b).pc = s.pc := rfl
@[simp] theorem writeV_sp (x : Nibble) (b : Byte) : (writeV s x b).sp = s.sp := rfl
@[simp] theorem writeV_stack (x : Nibble) (b : Byte) : (writeV s x b).stack = s.stack := rfl
@[simp] theorem writeV_dt (x : Nibble) (b : Byte) : (writeV s x b).dt = s.dt := rfl
@[simp] theorem writeV_st (x : Nibble) (b : Byte) : (writeV s x b).st = s.st := rfl
@[simp] theorem writeV_fb (x : Nibble) (b : Byte) : (writeV s x b).fb = s.fb := rfl
@[simp] theorem writeV_run (x : Nibble) (b : Byte) : (writeV s x b).run = s.run := rfl
@[simp] theorem writeV_cause (x : Nibble) (b : Byte) : (writeV s x b).cause = s.cause := rfl
@[simp] theorem writeV_mem (x : Nibble) (b : Byte) : (writeV s x b).mem = s.mem := rfl
@[simp] theorem writeV_key (x : Nibble) (b : Byte) : (writeV s x b).key = s.key := rfl
@[simp] theorem writeV_randDraws (x : Nibble) (b : Byte) : (writeV s x b).randDraws = s.randDraws := rfl

/-! ### `writeI` -/

@[simp] theorem writeI_v (w : Word) : (writeI s w).v = s.v := rfl
@[simp] theorem writeI_i (w : Word) : (writeI s w).i = w := rfl
@[simp] theorem writeI_pc (w : Word) : (writeI s w).pc = s.pc := rfl
@[simp] theorem writeI_sp (w : Word) : (writeI s w).sp = s.sp := rfl
@[simp] theorem writeI_stack (w : Word) : (writeI s w).stack = s.stack := rfl
@[simp] theorem writeI_dt (w : Word) : (writeI s w).dt = s.dt := rfl
@[simp] theorem writeI_st (w : Word) : (writeI s w).st = s.st := rfl
@[simp] theorem writeI_fb (w : Word) : (writeI s w).fb = s.fb := rfl
@[simp] theorem writeI_run (w : Word) : (writeI s w).run = s.run := rfl
@[simp] theorem writeI_cause (w : Word) : (writeI s w).cause = s.cause := rfl
@[simp] theorem writeI_mem (w : Word) : (writeI s w).mem = s.mem := rfl
@[simp] theorem writeI_key (w : Word) : (writeI s w).key = s.key := rfl
@[simp] theorem writeI_randDraws (w : Word) : (writeI s w).randDraws = s.randDraws := rfl

/-! ### `writePc` -/

@[simp] theorem writePc_v (w : Word) : (writePc s w).v = s.v := rfl
@[simp] theorem writePc_i (w : Word) : (writePc s w).i = s.i := rfl
@[simp] theorem writePc_pc (w : Word) : (writePc s w).pc = w % 4096#16 := rfl
@[simp] theorem writePc_sp (w : Word) : (writePc s w).sp = s.sp := rfl
@[simp] theorem writePc_stack (w : Word) : (writePc s w).stack = s.stack := rfl
@[simp] theorem writePc_dt (w : Word) : (writePc s w).dt = s.dt := rfl
@[simp] theorem writePc_st (w : Word) : (writePc s w).st = s.st := rfl
@[simp] theorem writePc_fb (w : Word) : (writePc s w).fb = s.fb := rfl
@[simp] theorem writePc_run (w : Word) : (writePc s w).run = s.run := rfl
@[simp] theorem writePc_cause (w : Word) : (writePc s w).cause = s.cause := rfl
@[simp] theorem writePc_mem (w : Word) : (writePc s w).mem = s.mem := rfl
@[simp] theorem writePc_key (w : Word) : (writePc s w).key = s.key := rfl
@[simp] theorem writePc_randDraws (w : Word) : (writePc s w).randDraws = s.randDraws := rfl

/-! ### `writeDt` -/

@[simp] theorem writeDt_v (b : Byte) : (writeDt s b).v = s.v := rfl
@[simp] theorem writeDt_i (b : Byte) : (writeDt s b).i = s.i := rfl
@[simp] theorem writeDt_pc (b : Byte) : (writeDt s b).pc = s.pc := rfl
@[simp] theorem writeDt_sp (b : Byte) : (writeDt s b).sp = s.sp := rfl
@[simp] theorem writeDt_stack (b : Byte) : (writeDt s b).stack = s.stack := rfl
@[simp] theorem writeDt_dt (b : Byte) : (writeDt s b).dt = b := rfl
@[simp] theorem writeDt_st (b : Byte) : (writeDt s b).st = s.st := rfl
@[simp] theorem writeDt_fb (b : Byte) : (writeDt s b).fb = s.fb := rfl
@[simp] theorem writeDt_run (b : Byte) : (writeDt s b).run = s.run := rfl
@[simp] theorem writeDt_cause (b : Byte) : (writeDt s b).cause = s.cause := rfl
@[simp] theorem writeDt_mem (b : Byte) : (writeDt s b).mem = s.mem := rfl
@[simp] theorem writeDt_key (b : Byte) : (writeDt s b).key = s.key := rfl
@[simp] theorem writeDt_randDraws (b : Byte) : (writeDt s b).randDraws = s.randDraws := rfl

/-! ### `writeSt` -/

@[simp] theorem writeSt_v (b : Byte) : (writeSt s b).v = s.v := rfl
@[simp] theorem writeSt_i (b : Byte) : (writeSt s b).i = s.i := rfl
@[simp] theorem writeSt_pc (b : Byte) : (writeSt s b).pc = s.pc := rfl
@[simp] theorem writeSt_sp (b : Byte) : (writeSt s b).sp = s.sp := rfl
@[simp] theorem writeSt_stack (b : Byte) : (writeSt s b).stack = s.stack := rfl
@[simp] theorem writeSt_dt (b : Byte) : (writeSt s b).dt = s.dt := rfl
@[simp] theorem writeSt_st (b : Byte) : (writeSt s b).st = b := rfl
@[simp] theorem writeSt_fb (b : Byte) : (writeSt s b).fb = s.fb := rfl
@[simp] theorem writeSt_run (b : Byte) : (writeSt s b).run = s.run := rfl
@[simp] theorem writeSt_cause (b : Byte) : (writeSt s b).cause = s.cause := rfl
@[simp] theorem writeSt_mem (b : Byte) : (writeSt s b).mem = s.mem := rfl
@[simp] theorem writeSt_key (b : Byte) : (writeSt s b).key = s.key := rfl
@[simp] theorem writeSt_randDraws (b : Byte) : (writeSt s b).randDraws = s.randDraws := rfl

/-! ### `writeKey` -/

@[simp] theorem writeKey_v (k : Nibble) (b : Bool) : (writeKey s k b).v = s.v := rfl
@[simp] theorem writeKey_i (k : Nibble) (b : Bool) : (writeKey s k b).i = s.i := rfl
@[simp] theorem writeKey_pc (k : Nibble) (b : Bool) : (writeKey s k b).pc = s.pc := rfl
@[simp] theorem writeKey_sp (k : Nibble) (b : Bool) : (writeKey s k b).sp = s.sp := rfl
@[simp] theorem writeKey_stack (k : Nibble) (b : Bool) : (writeKey s k b).stack = s.stack := rfl
@[simp] theorem writeKey_dt (k : Nibble) (b : Bool) : (writeKey s k b).dt = s.dt := rfl
@[simp] theorem writeKey_st (k : Nibble) (b : Bool) : (writeKey s k b).st = s.st := rfl
@[simp] theorem writeKey_fb (k : Nibble) (b : Bool) : (writeKey s k b).fb = s.fb := rfl
@[simp] theorem writeKey_run (k : Nibble) (b : Bool) : (writeKey s k b).run = s.run := rfl
@[simp] theorem writeKey_cause (k : Nibble) (b : Bool) : (writeKey s k b).cause = s.cause := rfl
@[simp] theorem writeKey_mem (k : Nibble) (b : Bool) : (writeKey s k b).mem = s.mem := rfl
@[simp] theorem writeKey_key (k : Nibble) (b : Bool) : (writeKey s k b).key = s.key.set k.toNat b k.isLt := rfl
@[simp] theorem writeKey_randDraws (k : Nibble) (b : Bool) : (writeKey s k b).randDraws = s.randDraws := rfl

/-! ### `writeMem` -/

@[simp] theorem writeMem_v (a : Nat) (b : Byte) : (writeMem s a b).v = s.v := rfl
@[simp] theorem writeMem_i (a : Nat) (b : Byte) : (writeMem s a b).i = s.i := rfl
@[simp] theorem writeMem_pc (a : Nat) (b : Byte) : (writeMem s a b).pc = s.pc := rfl
@[simp] theorem writeMem_sp (a : Nat) (b : Byte) : (writeMem s a b).sp = s.sp := rfl
@[simp] theorem writeMem_stack (a : Nat) (b : Byte) : (writeMem s a b).stack = s.stack := rfl
@[simp] theorem writeMem_dt (a : Nat) (b : Byte) : (writeMem s a b).dt = s.dt := rfl
@[simp] theorem writeMem_st (a : Nat) (b : Byte) : (writeMem s a b).st = s.st := rfl
@[simp] theorem writeMem_fb (a : Nat) (b : Byte) : (writeMem s a b).fb = s.fb := rfl
@[simp] theorem writeMem_run (a : Nat) (b : Byte) : (writeMem s a b).run = s.run := rfl
@[simp] theorem writeMem_cause (a : Nat) (b : Byte) : (writeMem s a b).cause = s.cause := rfl
@[simp] theorem writeMem_mem (a : Nat) (b : Byte) : (writeMem s a b).mem = memSet s.mem (a % Config.memSize) b := rfl
@[simp] theorem writeMem_key (a : Nat) (b : Byte) : (writeMem s a b).key = s.key := rfl
@[simp] theorem writeMem_randDraws (a : Nat) (b : Byte) : (writeMem s a b).randDraws = s.randDraws := rfl

/-! ### `writeData` -/

@[simp] theorem writeData_v (j : Nat) (b : Byte) : (writeData s j b).v = s.v := rfl
@[simp] theorem writeData_i (j : Nat) (b : Byte) : (writeData s j b).i = s.i := rfl
@[simp] theorem writeData_pc (j : Nat) (b : Byte) : (writeData s j b).pc = s.pc := rfl
@[simp] theorem writeData_sp (j : Nat) (b : Byte) : (writeData s j b).sp = s.sp := rfl
@[simp] theorem writeData_stack (j : Nat) (b : Byte) : (writeData s j b).stack = s.stack := rfl
@[simp] theorem writeData_dt (j : Nat) (b : Byte) : (writeData s j b).dt = s.dt := rfl
@[simp] theorem writeData_st (j : Nat) (b : Byte) : (writeData s j b).st = s.st := rfl
@[simp] theorem writeData_fb (j : Nat) (b : Byte) : (writeData s j b).fb = s.fb := rfl
@[simp] theorem writeData_run (j : Nat) (b : Byte) : (writeData s j b).run = s.run := rfl
@[simp] theorem writeData_cause (j : Nat) (b : Byte) : (writeData s j b).cause = s.cause := rfl
@[simp] theorem writeData_mem (j : Nat) (b : Byte) : (writeData s j b).mem = memSet s.mem (dataAddr s j % Config.memSize) b := rfl
@[simp] theorem writeData_key (j : Nat) (b : Byte) : (writeData s j b).key = s.key := rfl
@[simp] theorem writeData_randDraws (j : Nat) (b : Byte) : (writeData s j b).randDraws = s.randDraws := rfl

/-! ### `advancePc` -/

@[simp] theorem advancePc_v : (advancePc s).v = s.v := rfl
@[simp] theorem advancePc_i : (advancePc s).i = s.i := rfl
@[simp] theorem advancePc_pc : (advancePc s).pc = (s.pc + 2#16) % 4096#16 := rfl
@[simp] theorem advancePc_sp : (advancePc s).sp = s.sp := rfl
@[simp] theorem advancePc_stack : (advancePc s).stack = s.stack := rfl
@[simp] theorem advancePc_dt : (advancePc s).dt = s.dt := rfl
@[simp] theorem advancePc_st : (advancePc s).st = s.st := rfl
@[simp] theorem advancePc_fb : (advancePc s).fb = s.fb := rfl
@[simp] theorem advancePc_run : (advancePc s).run = s.run := rfl
@[simp] theorem advancePc_cause : (advancePc s).cause = s.cause := rfl
@[simp] theorem advancePc_mem : (advancePc s).mem = s.mem := rfl
@[simp] theorem advancePc_key : (advancePc s).key = s.key := rfl
@[simp] theorem advancePc_randDraws : (advancePc s).randDraws = s.randDraws := rfl

/-! ### `takeFault` -/

@[simp] theorem takeFault_v (c : Byte) : (takeFault c s).v = s.v := rfl
@[simp] theorem takeFault_i (c : Byte) : (takeFault c s).i = s.i := rfl
@[simp] theorem takeFault_pc (c : Byte) : (takeFault c s).pc = (s.pc - 2#16) % 4096#16 := rfl
@[simp] theorem takeFault_sp (c : Byte) : (takeFault c s).sp = s.sp := rfl
@[simp] theorem takeFault_stack (c : Byte) : (takeFault c s).stack = s.stack := rfl
@[simp] theorem takeFault_dt (c : Byte) : (takeFault c s).dt = s.dt := rfl
@[simp] theorem takeFault_st (c : Byte) : (takeFault c s).st = s.st := rfl
@[simp] theorem takeFault_fb (c : Byte) : (takeFault c s).fb = s.fb := rfl
@[simp] theorem takeFault_run (c : Byte) : (takeFault c s).run = .faulted := rfl
@[simp] theorem takeFault_cause (c : Byte) : (takeFault c s).cause = c := rfl
@[simp] theorem takeFault_mem (c : Byte) : (takeFault c s).mem = s.mem := rfl
@[simp] theorem takeFault_key (c : Byte) : (takeFault c s).key = s.key := rfl
@[simp] theorem takeFault_randDraws (c : Byte) : (takeFault c s).randDraws = s.randDraws := rfl

/-! ### `skipIf` -/

@[simp] theorem skipIf_v (c : Bool) : (skipIf c s).v = s.v := by cases c <;> rfl
@[simp] theorem skipIf_i (c : Bool) : (skipIf c s).i = s.i := by cases c <;> rfl
@[simp] theorem skipIf_pc (c : Bool) : (skipIf c s).pc = if c then (s.pc + 2#16) % 4096#16 else s.pc := by cases c <;> rfl
@[simp] theorem skipIf_sp (c : Bool) : (skipIf c s).sp = s.sp := by cases c <;> rfl
@[simp] theorem skipIf_stack (c : Bool) : (skipIf c s).stack = s.stack := by cases c <;> rfl
@[simp] theorem skipIf_dt (c : Bool) : (skipIf c s).dt = s.dt := by cases c <;> rfl
@[simp] theorem skipIf_st (c : Bool) : (skipIf c s).st = s.st := by cases c <;> rfl
@[simp] theorem skipIf_fb (c : Bool) : (skipIf c s).fb = s.fb := by cases c <;> rfl
@[simp] theorem skipIf_run (c : Bool) : (skipIf c s).run = s.run := by cases c <;> rfl
@[simp] theorem skipIf_cause (c : Bool) : (skipIf c s).cause = s.cause := by cases c <;> rfl
@[simp] theorem skipIf_mem (c : Bool) : (skipIf c s).mem = s.mem := by cases c <;> rfl
@[simp] theorem skipIf_key (c : Bool) : (skipIf c s).key = s.key := by cases c <;> rfl
@[simp] theorem skipIf_randDraws (c : Bool) : (skipIf c s).randDraws = s.randDraws := by cases c <;> rfl

/-! ### `drawRand` -/

@[simp] theorem drawRand_v : (drawRand s).2.v = s.v := rfl
@[simp] theorem drawRand_i : (drawRand s).2.i = s.i := rfl
@[simp] theorem drawRand_pc : (drawRand s).2.pc = s.pc := rfl
@[simp] theorem drawRand_sp : (drawRand s).2.sp = s.sp := rfl
@[simp] theorem drawRand_stack : (drawRand s).2.stack = s.stack := rfl
@[simp] theorem drawRand_dt : (drawRand s).2.dt = s.dt := rfl
@[simp] theorem drawRand_st : (drawRand s).2.st = s.st := rfl
@[simp] theorem drawRand_fb : (drawRand s).2.fb = s.fb := rfl
@[simp] theorem drawRand_run : (drawRand s).2.run = s.run := rfl
@[simp] theorem drawRand_cause : (drawRand s).2.cause = s.cause := rfl
@[simp] theorem drawRand_mem : (drawRand s).2.mem = s.mem := rfl
@[simp] theorem drawRand_key : (drawRand s).2.key = s.key := rfl
@[simp] theorem drawRand_randDraws : (drawRand s).2.randDraws = s.randDraws + 1 := rfl

end Sys2Proof.Machine
end

