-- ==== Sys2Proof/Laws/Memory.lean ====
section
/-! SUPPORT. Memory: a read after a write, and that every operation on memory keeps its canonical form. -/

namespace Sys2Proof.Machine

/-- In canonical form every address listed after the first is above it. -/
theorem memWf_cons {a : Nat} {b : Byte} {rest : Memory} :
    memWf ((a, b) :: rest) = true ↔
      a < 4096 ∧ b ≠ resetByte a ∧ (∀ c ∈ rest, a < c.1) ∧ memWf rest = true := by
  simp [memWf, and_assoc]

/-- An address below every listed one reads as the reset contents. -/
theorem memGet_of_lt {m : Memory} {a : Nat} (h : ∀ c ∈ m, a < c.1) : memGet m a = resetByte a := by
  induction m with
  | nil => rfl
  | cons c rest ih =>
    obtain ⟨k, b⟩ := c
    have hk : a < k := h (k, b) (by simp)
    have hne : k ≠ a := by omega
    simp only [memGet, hne, if_false]
    exact ih fun c hc => h c (by simp [hc])

/-- A write lists no address but the one written and those listed before. -/
theorem mem_memSet {m : Memory} {a : Nat} {b : Byte} {c : Host.Cell} (h : c ∈ memSet m a b) :
    c = (a, b) ∨ c ∈ m := by
  induction m with
  | nil =>
    simp only [memSet] at h
    split at h <;> simp_all
  | cons d rest ih =>
    obtain ⟨k, e⟩ := d
    simp only [memSet] at h
    split at h
    · split at h <;> simp_all
    · split at h
      · split at h
        · simp_all
        · rcases List.mem_cons.1 h with h | h
          · exact .inl h
          · exact .inr (List.mem_cons_of_mem _ h)
      · rcases List.mem_cons.1 h with h | h
        · exact .inr (h ▸ List.mem_cons_self)
        · exact (ih h).imp id (List.mem_cons_of_mem _)

/-- A write keeps the canonical form. -/
theorem memWf_memSet {m : Memory} {a : Nat} {b : Byte} (hm : memWf m = true) (ha : a < 4096) :
    memWf (memSet m a b) = true := by
  induction m with
  | nil =>
    simp only [memSet]
    split
    · rfl
    · rename_i hb
      exact memWf_cons.2 ⟨ha, hb, by simp, rfl⟩
  | cons c rest ih =>
    obtain ⟨k, e⟩ := c
    obtain ⟨hk, he, hlt, hrest⟩ := memWf_cons.1 hm
    simp only [memSet]
    split
    · rename_i hak
      split
      · exact hm
      · rename_i hb
        refine memWf_cons.2 ⟨ha, hb, ?_, hm⟩
        intro c hc
        rcases List.mem_cons.1 hc with rfl | hc
        · exact hak
        · exact Nat.lt_trans hak (hlt c hc)
    · split
      · rename_i hak
        split
        · exact hrest
        · rename_i hb
          exact memWf_cons.2 ⟨ha, hb, hak ▸ hlt, hrest⟩
      · rename_i h1 h2
        refine memWf_cons.2 ⟨hk, he, ?_, ih hrest⟩
        intro c hc
        rcases mem_memSet hc with rfl | hc
        · show k < a; omega
        · exact hlt c hc

/-- What an address reads as after a write: the byte written there, and every other address as before. -/
theorem memGet_memSet {m : Memory} (hm : memWf m = true) (a b' : Nat) (b : Byte) :
    memGet (memSet m a b) b' = if a = b' then b else memGet m b' := by
  induction m with
  | nil =>
    simp only [memSet]
    split <;> by_cases h : a = b' <;> simp_all [memGet]
  | cons c rest ih =>
    obtain ⟨k, e⟩ := c
    obtain ⟨-, -, hlt, hrest⟩ := memWf_cons.1 hm
    simp only [memSet]
    split
    · rename_i hak
      have hlow : memGet ((k, e) :: rest) a = resetByte a := by
        refine memGet_of_lt fun c hc => ?_
        rcases List.mem_cons.1 hc with rfl | hc
        · exact hak
        · exact Nat.lt_trans hak (hlt c hc)
      split
      · rename_i hb
        by_cases h : a = b'
        · subst h; simp [hlow, hb]
        · simp [h]
      · by_cases h : a = b' <;> simp [memGet, h]
    · split
      · rename_i hak
        subst hak
        split
        · rename_i hb
          by_cases h : a = b'
          · subst h; simp [memGet_of_lt hlt, hb]
          · simp [memGet, h]
        · by_cases h : a = b' <;> simp [memGet, h]
      · rename_i h1 h2
        simp only [memGet, ih hrest]
        by_cases h : k = b'
        · have : a ≠ b' := by omega
          simp [h, this]
        · simp [h]

/-- A read after a write, through the reduction of addresses modulo 4096 (R51, R55). -/
theorem readMem_writeMem {s : State} (hs : memWf s.mem = true) (a a' : Nat) (b : Byte) :
    readMem (writeMem s a b) a' = if a % 4096 = a' % 4096 then b else readMem s a' := by
  simp [readMem, memGet_memSet hs]

/-- One store keeps the canonical form. -/
theorem memWf_writeMem {s : State} (hs : memWf s.mem = true) (a : Nat) (b : Byte) :
    memWf (writeMem s a b).mem = true :=
  memWf_memSet hs (Nat.mod_lt _ (by decide))

/-- A store through `I` keeps the canonical form. -/
theorem memWf_writeData {s : State} (hs : memWf s.mem = true) (j : Nat) (b : Byte) :
    memWf (writeData s j b).mem = true := memWf_writeMem hs _ b

/-- A block of bytes keeps the canonical form. -/
theorem memWf_writeBytes {s : State} (hs : memWf s.mem = true) (a : Nat) (bs : List Byte) :
    memWf (writeBytes s a bs).mem = true := by
  induction bs generalizing s a with
  | nil => exact hs
  | cons b bs ih => exact ih (memWf_writeMem hs a b) (a + 1)

/-- A block of bytes changes memory and nothing else. -/
theorem writeBytes_eq (s : State) (a : Nat) (bs : List Byte) :
    writeBytes s a bs = { s with mem := (writeBytes s a bs).mem } := by
  induction bs generalizing s a with
  | nil => rfl
  | cons b bs ih => exact (ih (writeMem s a b) (a + 1)).trans rfl

/-- What an address reads as after a block of bytes that does not pass the end of the address space. -/
theorem readMem_writeBytes {s : State} (hs : memWf s.mem = true) {a : Nat} {bs : List Byte}
    (hfit : a + bs.length ≤ 4096) {a' : Nat} (ha' : a' < 4096) :
    readMem (writeBytes s a bs) a' =
      if h : a ≤ a' ∧ a' < a + bs.length then bs[a' - a]'(by omega) else readMem s a' := by
  induction bs generalizing s a with
  | nil =>
    have hnot : ¬ (a ≤ a' ∧ a' < a + ([] : List Byte).length) := by simp
    rw [dif_neg hnot, writeBytes]
  | cons b bs ih =>
    simp only [List.length_cons] at hfit
    rw [writeBytes, ih (memWf_writeMem hs a b) (by omega), readMem_writeMem hs]
    have e1 : a % 4096 = a := Nat.mod_eq_of_lt (by omega)
    have e2 : a' % 4096 = a' := Nat.mod_eq_of_lt ha'
    rw [e1, e2]
    simp only [List.length_cons]
    by_cases h1 : a + 1 ≤ a' ∧ a' < a + 1 + bs.length
    · have h2 : a ≤ a' ∧ a' < a + (bs.length + 1) := by omega
      have h3 : a' - a = (a' - (a + 1)) + 1 := by omega
      simp only [h1, h2, and_self, dif_pos, h3, List.getElem_cons_succ]
    · rw [dif_neg h1]
      by_cases h2 : a = a'
      · subst h2
        simp
      · rw [if_neg h2, dif_neg (by omega)]

/-- A store through `I` read back through memory: `dataAddr` is already reduced. -/
theorem readMem_writeData {s : State} (hs : memWf s.mem = true) (j a : Nat) (b : Byte) :
    readMem (writeData s j b) a = if dataAddr s j = a % 4096 then b else readMem s a := by
  rw [writeData, readMem_writeMem hs]
  have : dataAddr s j % 4096 = dataAddr s j := Nat.mod_eq_of_lt (Nat.mod_lt _ (by decide))
  rw [this]

/-- Sixteen consecutive data addresses are different bytes. -/
theorem dataAddr_inj {s : State} {j k : Nat} (hj : j < 4096) (hk : k < 4096) :
    dataAddr s j = dataAddr s k ↔ j = k := by
  unfold dataAddr
  simp only [Config.memSize]
  omega

end Sys2Proof.Machine
end

