-- ==== Sys2Proof/Laws/Ops.lean ====
section
/-! SUPPORT. For each shared operation, what it does, said once: registers, keys, the program counter, the stack, register
blocks and the sprite blit. -/

namespace Sys2Proof.Machine

/-! ### Registers, keys, program counter -/

/-- A register read after a register write (R21). -/
theorem readV_writeV (s : State) (x y : Nibble) (b : Byte) :
    readV (writeV s x b) y = if x = y then b else readV s y := by
  simp only [readV, writeV, Vector.getElem_set, BitVec.toNat_inj]

@[simp] theorem readV_writeV_same (s : State) (x : Nibble) (b : Byte) : readV (writeV s x b) x = b := by
  simp [readV_writeV]

theorem readV_writeV_ne (s : State) {x y : Nibble} (h : x ≠ y) (b : Byte) : readV (writeV s x b) y = readV s y := by
  simp [readV_writeV, h]

/-- A register reads by the register file alone. -/
theorem readV_congr {s t : State} (h : t.v = s.v) (x : Nibble) : readV t x = readV s x := by
  simp [readV, h]

/-- A key read after a key write (R182). -/
theorem readKey_writeKey (s : State) (k l : Nibble) (b : Bool) :
    readKey (writeKey s k b) l = if k = l then b else readKey s l := by
  simp only [readKey, writeKey, Vector.getElem_set, BitVec.toNat_inj]

/-- Every write to PC is below 4096 (R23). -/
theorem pc_mod_lt (w : Word) : (w % 4096#16).toNat < 4096 := by
  simp only [BitVec.toNat_umod, BitVec.toNat_ofNat, Nat.reducePow, Nat.reduceMod]
  omega

/-- A 12-bit address is a PC value as it stands (R72). -/
theorem zextAddr_mod (nnn : Addr) : zextAddr nnn % 4096#16 = zextAddr nnn := by
  apply BitVec.eq_of_toNat_eq
  have := nnn.isLt
  simp only [zextAddr, BitVec.toNat_umod, BitVec.toNat_setWidth, BitVec.toNat_ofNat, Nat.reducePow, Nat.reduceMod]
  omega

/-- The advance undone: the address of the instruction itself (R84). -/
theorem advance_back {w : Word} (h : w.toNat < 4096) : ((w + 2#16) % 4096#16 - 2#16) % 4096#16 = w := by
  apply BitVec.eq_of_toNat_eq
  simp only [BitVec.toNat_umod, BitVec.toNat_sub, BitVec.toNat_add, BitVec.toNat_ofNat, Nat.reducePow, Nat.reduceMod]
  omega

/-- Fault entry after a step's own advance is the state before the step but for RUN and CAUSE (R84, R172). -/
theorem takeFault_advancePc {s : State} (h : s.pc.toNat < 4096) (c : Byte) :
    takeFault c (advancePc s) = { s with run := .faulted, cause := c } := by
  have e := advance_back h
  simp only [takeFault, advancePc, writePc] at e ⊢
  rw [e]

/-! ### The stack -/

/-- A push on a stack that is not full (R27). -/
theorem push_of_lt {s : State} (h : s.sp.val < 16) (a : Word) :
    push s a = some { s with sp := ⟨s.sp.val + 1, by omega⟩, stack := s.stack.set s.sp.val a } := by
  simp [push, h]

/-- A push on a full stack (R27). -/
theorem push_of_full {s : State} (h : s.sp.val = 16) (a : Word) : push s a = none := by
  simp [push, h]

/-- A pop from a stack that is not empty (R27). -/
theorem pop_of_pos {s : State} (h : 0 < s.sp.val) :
    pop s = some (s.stack[s.sp.val - 1]'(by omega), { s with sp := ⟨s.sp.val - 1, by omega⟩ }) := by
  simp [pop, h]

/-- A pop from an empty stack (R27). -/
theorem pop_of_empty {s : State} (h : s.sp.val = 0) : pop s = none := by
  simp [pop, h]

/-! ### Register blocks -/

/-- A block store changes memory and nothing else. -/
theorem storeRegs_eq (s : State) (n : Nat) : storeRegs s n = { s with mem := (storeRegs s n).mem } := by
  induction n with
  | zero => rfl
  | succ n ih =>
    exact congrArg (fun t : State => { t with mem := (storeRegs s (n + 1)).mem }) ih

theorem memWf_storeRegs {s : State} (hs : memWf s.mem = true) (n : Nat) : memWf (storeRegs s n).mem = true := by
  induction n with
  | zero => exact hs
  | succ n ih => exact memWf_writeData ih n _

/-- A block store uses the addresses and registers of the state it starts in. -/
theorem dataAddr_storeRegs (s : State) (n j : Nat) : dataAddr (storeRegs s n) j = dataAddr s j := by
  rw [storeRegs_eq]; rfl

theorem readV_storeRegs (s : State) (n : Nat) (x : Nibble) : readV (storeRegs s n) x = readV s x :=
  readV_congr (by rw [storeRegs_eq]) x

/-- After a block store of V0 .. V(n-1), byte j of the block reads V[j] (R164). -/
theorem readMem_storeRegs {s : State} (hs : memWf s.mem = true) {n : Nat} (hn : n ≤ 16) {j : Nat} (hj : j < n) :
    readMem (storeRegs s n) (dataAddr s j) = readV s (BitVec.ofNat 4 j) := by
  induction n with
  | zero => omega
  | succ n ih =>
    rw [storeRegs, readMem_writeData (memWf_storeRegs hs n), dataAddr_storeRegs, readV_storeRegs]
    have e : dataAddr s j % 4096 = dataAddr s j := Nat.mod_eq_of_lt (Nat.mod_lt _ (by decide))
    rw [e]
    by_cases h : n = j
    · subst h; simp
    · have hne : dataAddr s n ≠ dataAddr s j := fun h' => h ((dataAddr_inj (by omega) (by omega)).1 h')
      rw [if_neg hne]
      exact ih (by omega) (by omega)

/-- A block store leaves every other byte alone (R164). -/
theorem readMem_storeRegs_other {s : State} (hs : memWf s.mem = true) (n : Nat) {a : Nat} (ha : a < 4096)
    (hother : ∀ j < n, dataAddr s j ≠ a) : readMem (storeRegs s n) a = readMem s a := by
  induction n with
  | zero => rfl
  | succ n ih =>
    rw [storeRegs, readMem_writeData (memWf_storeRegs hs n), dataAddr_storeRegs, Nat.mod_eq_of_lt ha,
      if_neg (hother n (by omega))]
    exact ih fun j hj => hother j (by omega)

/-- A block load changes the register file and nothing else. -/
theorem loadRegs_eq (s : State) (n : Nat) : loadRegs s n = { s with v := (loadRegs s n).v } := by
  induction n with
  | zero => rfl
  | succ n ih =>
    exact congrArg (fun t : State => { t with v := (loadRegs s (n + 1)).v }) ih

theorem readData_loadRegs (s : State) (n j : Nat) : readData (loadRegs s n) j = readData s j := by
  rw [loadRegs_eq]; rfl

/-- After a block load of n registers, the first n hold the block and the others what they held (R165). -/
theorem readV_loadRegs (s : State) {n : Nat} (hn : n ≤ 16) (r : Nibble) :
    readV (loadRegs s n) r = if r.toNat < n then readData s r.toNat else readV s r := by
  induction n with
  | zero => simp [loadRegs]
  | succ n ih =>
    rw [loadRegs, readV_writeV, readData_loadRegs, ih (by omega)]
    have hx : BitVec.ofNat 4 n = r ↔ n = r.toNat := by
      rw [← BitVec.toNat_inj, BitVec.toNat_ofNat, Nat.mod_eq_of_lt (by omega)]
    simp only [hx]
    by_cases h1 : n = r.toNat
    · subst h1; simp
    · by_cases h2 : r.toNat < n
      · have : r.toNat < n + 1 := by omega
        simp [h1, h2, this]
      · have : ¬ r.toNat < n + 1 := by omega
        simp [h1, h2, this]

/-! ### The sprite blit -/

theorem pixel_flipPixel (fb : Framebuffer) (x x' : Fin 64) (y y' : Fin 32) :
    pixel (flipPixel fb x y) x' y' = if x' = x ∧ y' = y then !pixel fb x' y' else pixel fb x' y' := by
  simp only [pixel, flipPixel, Fin.getElem_fin, Vector.getElem_set, Fin.val_inj]
  by_cases hx : x' = x
  · subst hx
    by_cases hy : y' = y
    · subst hy; simp
    · have : y ≠ y' := fun h => hy h.symm
      simp [hy, Fin.val_inj, this]
  · have : x ≠ x' := fun h => hx h.symm
    simp [hx, this]

/-- Eight columns in a row are different columns. -/
theorem wrapX_inj {sx b c : Nat} (hb : b < 64) (hc : c < 64) : wrapX (sx + b) = wrapX (sx + c) ↔ b = c := by
  simp only [wrapX, Fin.mk.injEq]; omega

/-- Up to 32 rows are different rows. -/
theorem wrapY_inj {sy b c : Nat} (hb : b < 32) (hc : c < 32) : wrapY (sy + b) = wrapY (sy + c) ↔ b = c := by
  simp only [wrapY, Fin.mk.injEq]; omega

/-- The first k pixels of a row: exactly the pixels under a 1 bit are flipped. -/
theorem pixel_drawBits (sx y : Nat) (byte : Byte) {k : Nat} (hk : k ≤ 8) (p : Framebuffer × Bool) (x' : Fin 64)
    (y' : Fin 32) :
    pixel (drawBits sx y byte k p).1 x' y' =
      if y' = wrapY y ∧ ∃ b, b < k ∧ spriteBit byte b = true ∧ x' = wrapX (sx + b)
      then !pixel p.1 x' y' else pixel p.1 x' y' := by
  induction k with
  | zero => simp [drawBits]
  | succ k ih =>
    have ih := ih (by omega)
    simp only [drawBits, drawBit]
    by_cases hbit : spriteBit byte k = true
    · simp only [hbit, if_true, pixel_flipPixel, ih]
      by_cases hx : x' = wrapX (sx + k)
      · subst hx
        have hnone : ¬ ∃ b, b < k ∧ spriteBit byte b = true ∧ wrapX (sx + k) = wrapX (sx + b) := by
          rintro ⟨b, hb, -, h⟩
          have := (wrapX_inj (by omega) (by omega)).1 h
          omega
        have hsome : ∃ b, b < k + 1 ∧ spriteBit byte b = true ∧ wrapX (sx + k) = wrapX (sx + b) :=
          ⟨k, by omega, hbit, rfl⟩
        simp only [hnone, hsome, and_false, and_true, true_and, if_false]
      · have hiff : (∃ b, b < k + 1 ∧ spriteBit byte b = true ∧ x' = wrapX (sx + b)) ↔
            ∃ b, b < k ∧ spriteBit byte b = true ∧ x' = wrapX (sx + b) := by
          refine ⟨fun ⟨b, hb, h1, h2⟩ => ⟨b, ?_, h1, h2⟩, fun ⟨b, hb, h⟩ => ⟨b, by omega, h⟩⟩
          rcases Nat.lt_succ_iff_lt_or_eq.1 hb with h | rfl
          · exact h
          · exact absurd h2 hx
        simp only [hx, false_and, if_false, hiff]
    · have hiff : (∃ b, b < k + 1 ∧ spriteBit byte b = true ∧ x' = wrapX (sx + b)) ↔
          ∃ b, b < k ∧ spriteBit byte b = true ∧ x' = wrapX (sx + b) := by
        refine ⟨fun ⟨b, hb, h1, h2⟩ => ⟨b, ?_, h1, h2⟩, fun ⟨b, hb, h⟩ => ⟨b, by omega, h⟩⟩
        rcases Nat.lt_succ_iff_lt_or_eq.1 hb with h | rfl
        · exact h
        · exact absurd h1 hbit
      simp only [hbit, hiff]
      exact ih

/-- The collision bit after the first k pixels of a row: set before, or some pixel under a 1 bit was set (R143). -/
theorem collision_drawBits (sx y : Nat) (byte : Byte) {k : Nat} (hk : k ≤ 8) (p : Framebuffer × Bool) :
    (drawBits sx y byte k p).2 = true ↔
      p.2 = true ∨ ∃ b, b < k ∧ spriteBit byte b = true ∧ pixel p.1 (wrapX (sx + b)) (wrapY y) = true := by
  induction k with
  | zero => simp [drawBits]
  | succ k ih =>
    have ih := ih (by omega)
    have hpix : pixel (drawBits sx y byte k p).1 (wrapX (sx + k)) (wrapY y) =
        pixel p.1 (wrapX (sx + k)) (wrapY y) := by
      rw [pixel_drawBits sx y byte (by omega)]
      refine if_neg ?_
      rintro ⟨-, b, hb, -, h⟩
      have := (wrapX_inj (by omega) (by omega)).1 h
      omega
    have hstep : (∃ b, b < k + 1 ∧ spriteBit byte b = true ∧ pixel p.1 (wrapX (sx + b)) (wrapY y) = true) ↔
        (∃ b, b < k ∧ spriteBit byte b = true ∧ pixel p.1 (wrapX (sx + b)) (wrapY y) = true) ∨
          (spriteBit byte k = true ∧ pixel p.1 (wrapX (sx + k)) (wrapY y) = true) := by
      constructor
      · rintro ⟨b, hb, h⟩
        rcases Nat.lt_succ_iff_lt_or_eq.1 hb with h' | rfl
        · exact .inl ⟨b, h', h⟩
        · exact .inr h
      · rintro (⟨b, hb, h⟩ | h)
        · exact ⟨b, by omega, h⟩
        · exact ⟨k, by omega, h⟩
    simp only [drawBits, drawBit]
    by_cases hbit : spriteBit byte k = true
    · simp only [hbit, if_true, Bool.or_eq_true, ih, hpix, hstep, true_and, or_assoc]
    · rw [if_neg hbit, hstep, ih]
      simp only [hbit, Bool.false_eq_true, false_and, or_false]

/-- Rows of a sprite from row y on: exactly the pixels under a 1 bit are flipped (R141). -/
theorem pixel_drawRows (sx : Nat) (bytes : List Byte) (y : Nat) (hlen : bytes.length ≤ 32) (p : Framebuffer × Bool)
    (x' : Fin 64) (y' : Fin 32) :
    pixel (drawRows sx y bytes p).1 x' y' =
      open Classical in
      if ∃ r, ∃ h : r < bytes.length, ∃ b, b < 8 ∧ spriteBit (bytes[r]'h) b = true ∧ x' = wrapX (sx + b) ∧
        y' = wrapY (y + r)
      then !pixel p.1 x' y' else pixel p.1 x' y' := by
  classical
  induction bytes generalizing y p with
  | nil => simp [drawRows]
  | cons byte bytes ih =>
    simp only [List.length_cons] at hlen
    rw [drawRows, ih (y + 1) (by omega), pixel_drawBits sx y byte (by omega)]
    have hsplit : (∃ r, ∃ h : r < (byte :: bytes).length, ∃ b, b < 8 ∧ spriteBit ((byte :: bytes)[r]'h) b = true ∧
          x' = wrapX (sx + b) ∧ y' = wrapY (y + r)) ↔
        (y' = wrapY y ∧ ∃ b, b < 8 ∧ spriteBit byte b = true ∧ x' = wrapX (sx + b)) ∨
          ∃ r, ∃ h : r < bytes.length, ∃ b, b < 8 ∧ spriteBit (bytes[r]'h) b = true ∧ x' = wrapX (sx + b) ∧
            y' = wrapY (y + 1 + r) := by
      constructor
      · rintro ⟨r, h, b, hb, h1, h2, h3⟩
        cases r with
        | zero => exact .inl ⟨by simpa using h3, b, hb, by simpa using h1, h2⟩
        | succ r =>
          refine .inr ⟨r, by simpa using h, b, hb, by simpa using h1, h2, ?_⟩
          rw [h3]; congr 1; omega
      · rintro (⟨h3, b, hb, h1, h2⟩ | ⟨r, h, b, hb, h1, h2, h3⟩)
        · exact ⟨0, by simp, b, hb, by simpa using h1, h2, by simpa using h3⟩
        · refine ⟨r + 1, by simpa using h, b, hb, by simpa using h1, h2, ?_⟩
          rw [h3]; congr 1; omega
    have hdisj : y' = wrapY y → ¬ ∃ r, ∃ h : r < bytes.length, ∃ b, b < 8 ∧ spriteBit (bytes[r]'h) b = true ∧
        x' = wrapX (sx + b) ∧ y' = wrapY (y + 1 + r) := by
      rintro h0 ⟨r, h, -, -, -, -, h3⟩
      have : wrapY (y + 0) = wrapY (y + (1 + r)) := by rw [← Nat.add_assoc, ← h3]; exact h0.symm
      have := (wrapY_inj (by omega) (by omega)).1 this
      omega
    by_cases hrow : y' = wrapY y ∧ ∃ b, b < 8 ∧ spriteBit byte b = true ∧ x' = wrapX (sx + b)
    · rw [if_neg (hdisj hrow.1), if_pos hrow, if_pos (hsplit.2 (.inl hrow))]
    · simp only [hsplit, hrow, false_or, if_false]

/-- The collision bit after the rows of a sprite: set before, or some pixel under a 1 bit was set (R143). -/
theorem collision_drawRows (sx : Nat) (bytes : List Byte) (y : Nat) (hlen : bytes.length ≤ 32)
    (p : Framebuffer × Bool) :
    (drawRows sx y bytes p).2 = true ↔
      p.2 = true ∨ ∃ r, ∃ h : r < bytes.length, ∃ b, b < 8 ∧ spriteBit (bytes[r]'h) b = true ∧
        pixel p.1 (wrapX (sx + b)) (wrapY (y + r)) = true := by
  induction bytes generalizing y p with
  | nil => simp [drawRows]
  | cons byte bytes ih =>
    simp only [List.length_cons] at hlen
    rw [drawRows, ih (y + 1) (by omega), collision_drawBits sx y byte (by omega), or_assoc]
    refine or_congr Iff.rfl ?_
    have hpix : ∀ r < bytes.length, ∀ x, pixel (drawBits sx y byte 8 p).1 x (wrapY (y + 1 + r)) =
        pixel p.1 x (wrapY (y + 1 + r)) := by
      intro r hr x
      rw [pixel_drawBits sx y byte (by omega)]
      refine if_neg ?_
      rintro ⟨h, -⟩
      have : wrapY (y + (1 + r)) = wrapY (y + 0) := by rw [← Nat.add_assoc]; exact h
      have := (wrapY_inj (by omega) (by omega)).1 this
      omega
    constructor
    · rintro (⟨b, hb, h1, h2⟩ | ⟨r, h, b, hb, h1, h2⟩)
      · exact ⟨0, by simp, b, hb, by simpa using h1, by simpa using h2⟩
      · refine ⟨r + 1, by simpa using h, b, hb, by simpa using h1, ?_⟩
        rw [hpix r h] at h2
        rw [← h2]; congr 2; omega
    · rintro ⟨r, h, b, hb, h1, h2⟩
      cases r with
      | zero => exact .inl ⟨b, hb, by simpa using h1, by simpa using h2⟩
      | succ r =>
        have hr : r < bytes.length := by simpa using h
        refine .inr ⟨r, hr, b, hb, by simpa using h1, ?_⟩
        rw [hpix r hr, ← h2]; congr 2; omega

/-- `DrawSprite` flips exactly the pixels the sprite covers (R141). -/
theorem pixel_drawSprite (sx sy : Byte) {bytes : List Byte} (hlen : bytes.length ≤ 32) (fb : Framebuffer) (x : Fin 64)
    (y : Fin 32) :
    (SpriteCovers sx sy bytes x y → pixel (drawSprite sx sy bytes fb).1 x y = !pixel fb x y) ∧
      (¬ SpriteCovers sx sy bytes x y → pixel (drawSprite sx sy bytes fb).1 x y = pixel fb x y) := by
  classical
  have h := pixel_drawRows sx.toNat bytes sy.toNat hlen (fb, false) x y
  exact ⟨fun hc => h.trans (if_pos hc), fun hc => h.trans (if_neg hc)⟩

/-- The collision bit is 1 exactly when a covered pixel was set (R143). -/
theorem collision_drawSprite (sx sy : Byte) {bytes : List Byte} (hlen : bytes.length ≤ 32) (fb : Framebuffer) :
    (drawSprite sx sy bytes fb).2 = true ↔
      ∃ (x : Fin 64) (y : Fin 32), SpriteCovers sx sy bytes x y ∧ pixel fb x y = true := by
  refine (collision_drawRows sx.toNat bytes sy.toNat hlen (fb, false)).trans ?_
  constructor
  · rintro (h | ⟨r, h, b, hb, h1, h2⟩)
    · cases h
    · exact ⟨_, _, ⟨r, h, b, hb, h1, rfl, rfl⟩, h2⟩
  · rintro ⟨x, y, ⟨r, h, b, hb, h1, rfl, rfl⟩, h2⟩
    exact .inr ⟨r, h, b, hb, h1, h2⟩

/-- A sprite of Dxyn has n bytes (R144). -/
@[simp] theorem length_spriteBytes (s : State) (n : Nibble) : (spriteBytes s n).length = n.toNat := by
  simp [spriteBytes]

/-- Row r of a sprite of Dxyn (R144). -/
theorem getElem_spriteBytes (s : State) (n : Nibble) (r : Nat) (h : r < (spriteBytes s n).length) :
    (spriteBytes s n)[r]'h = readData s r := by
  simp [spriteBytes]

end Sys2Proof.Machine
end

