-- ==== Sys2Proof/Laws/Frame.lean ====
section
/-! SUPPORT. What each update leaves alone, in the terms the statements use, and that updates keep the invariant. -/

namespace Sys2Proof.Machine

/-! ### Frames -/

/-- Two states with the same register file but at the listed registers, and the same everything else but PC. -/
theorem onlyRegs_of_eq {rs : List Nibble} {s t : State} (hv : RegsSameBut rs s t)
    (h : t = { s with v := t.v, pc := t.pc }) : OnlyRegs rs s t := by
  refine ⟨hv, ?_, ⟨?_, ?_⟩, ?_, ?_, ?_, ⟨?_, ?_⟩, ⟨?_, ?_⟩, ?_⟩ <;> rw [h]
  · intro k; rfl
  · intro x y; rfl
  · intro a _ _; rfl

theorem regsSame_of_v {rs : List Nibble} {s t : State} (h : t.v = s.v) : RegsSameBut rs s t :=
  fun r _ => readV_congr h r

theorem onlyRegs_writeV (s : State) (x : Nibble) (b : Byte) : OnlyRegs [x] s (writeV s x b) :=
  onlyRegs_of_eq (fun r hr => readV_writeV_ne s (fun h => hr (by simp [h])) b) rfl

/-- A flag write and a result write after it. -/
theorem onlyRegs_writeV_flag (s : State) (x : Nibble) (f b : Byte) :
    OnlyRegs [x, regF] s (writeV (writeV s regF f) x b) := by
  refine onlyRegs_of_eq (fun r hr => ?_) rfl
  simp only [List.mem_cons, List.not_mem_nil, or_false, not_or] at hr
  rw [readV_writeV_ne _ (fun h => hr.1 h.symm), readV_writeV_ne _ (fun h => hr.2 h.symm)]

theorem onlyRegs_writePc (s : State) (w : Word) : OnlyRegs [] s (writePc s w) :=
  onlyRegs_of_eq (regsSame_of_v rfl) rfl

theorem onlyRegs_skipIf (c : Bool) (s : State) : OnlyRegs [] s (skipIf c s) := by
  cases c
  · exact onlyRegs_of_eq (regsSame_of_v rfl) rfl
  · exact onlyRegs_writePc s _

theorem onlyRegs_loadRegs (s : State) {n : Nat} (hn : n ≤ 16) :
    OnlyRegs ((List.range n).map (BitVec.ofNat 4)) s (loadRegs s n) := by
  refine onlyRegs_of_eq (fun r hr => ?_) ?_
  · rw [readV_loadRegs s hn]
    refine if_neg fun h => hr ?_
    simp only [List.mem_map, List.mem_range]
    exact ⟨r.toNat, h, by simp⟩
  · have hpc : (loadRegs s n).pc = s.pc := by rw [loadRegs_eq]
    rw [hpc]
    exact loadRegs_eq s n

/-- Two states with the same memory but at the listed addresses, and the same everything else. -/
theorem onlyMem_of_eq {as : List Nat} {s t : State} (hm : MemSameBut as s t) (h : t = { s with mem := t.mem }) :
    OnlyMem as s t := by
  refine ⟨?_, ?_, ⟨?_, ?_⟩, ?_, ?_, hm, ⟨?_, ?_⟩, ⟨?_, ?_⟩, ?_⟩ <;> rw [h]
  · intro r _; rfl
  · intro k; rfl
  · intro x y; rfl

theorem onlyMem_storeRegs {s : State} (hs : memWf s.mem = true) (n : Nat) :
    OnlyMem ((List.range n).map (dataAddr s)) s (storeRegs s n) := by
  refine onlyMem_of_eq (fun a ha hno => ?_) (storeRegs_eq s n)
  refine readMem_storeRegs_other hs n ha fun j hj h => hno ?_
  simp only [List.mem_map, List.mem_range]
  exact ⟨j, hj, h⟩

theorem pc_skipIf (c : Bool) (s : State) :
    (skipIf c s).pc = if c then (s.pc + 2#16) % 4096#16 else s.pc := by cases c <;> rfl

/-- PC + 2 modulo 4096, as a number (R82, R100). -/
theorem pc_add_two (w : Word) : ((w + 2#16) % 4096#16).toNat = (w.toNat + 2) % 4096 := by
  simp only [BitVec.toNat_umod, BitVec.toNat_add, BitVec.toNat_ofNat, Nat.reducePow, Nat.reduceMod]
  omega

/-- A stack fault leaves everything but PC, RUN and CAUSE (R84, R172). -/
theorem faultTaken_takeFault (c : Byte) (s : State) : FaultTaken c s (takeFault c s) :=
  ⟨⟨regsSame_of_v rfl, rfl, ⟨rfl, rfl⟩, fun _ => rfl, fun _ _ => rfl, fun _ _ _ => rfl, rfl⟩, ⟨rfl, rfl⟩, rfl, rfl⟩

/-! ### The invariant -/

/-- The invariant is about PC, the stack slots, RUN, CAUSE and memory. -/
theorem Inv.of_eq {s t : State} (h : Inv s) (hpc : t.pc = s.pc) (hst : t.stack = s.stack) (hrun : t.run = s.run)
    (hcause : t.cause = s.cause) (hmem : t.mem = s.mem) : Inv t where
  pc_lt := hpc ▸ h.pc_lt
  stack_lt := fun j => by rw [hst]; exact h.stack_lt j
  cause_run := by
    have := h.cause_run
    unfold CauseMatchesRun at this ⊢
    rwa [hrun, hcause]
  mem_wf := hmem ▸ h.mem_wf

theorem Inv.writePc {s : State} (h : Inv s) (w : Word) : Inv (writePc s w) where
  pc_lt := pc_mod_lt w
  stack_lt := h.stack_lt
  cause_run := h.cause_run
  mem_wf := h.mem_wf

theorem Inv.skipIf {s : State} (h : Inv s) (c : Bool) : Inv (skipIf c s) := by
  cases c
  · exact h
  · exact h.writePc _

theorem Inv.writeV {s : State} (h : Inv s) (x : Nibble) (b : Byte) : Inv (writeV s x b) :=
  h.of_eq rfl rfl rfl rfl rfl

theorem Inv.withMem {s : State} (h : Inv s) {m : Memory} (hm : memWf m = true) : Inv { s with mem := m } where
  pc_lt := h.pc_lt
  stack_lt := h.stack_lt
  cause_run := h.cause_run
  mem_wf := hm

theorem Inv.takeFault {s : State} (h : Inv s) {c : Byte} (h0 : c ≠ 0#8) (h2 : c.toNat ≤ 2) : Inv (takeFault c s) where
  pc_lt := pc_mod_lt _
  stack_lt := h.stack_lt
  cause_run := ⟨⟨fun _ => rfl, fun _ => h0⟩, h2⟩
  mem_wf := h.mem_wf

theorem Inv.push {s t : State} (h : Inv s) {a : Word} (ha : a.toNat < 4096) (hp : push s a = some t) : Inv t := by
  unfold Machine.push at hp
  split at hp
  · cases hp
    refine ⟨h.pc_lt, fun j => ?_, h.cause_run, h.mem_wf⟩
    have hj := h.stack_lt j
    simp only [Fin.getElem_fin, Vector.getElem_set] at hj ⊢
    split
    · exact ha
    · exact hj
  · cases hp

theorem Inv.pop {s t : State} (h : Inv s) {a : Word} (hp : pop s = some (a, t)) : Inv t := by
  unfold Machine.pop at hp
  split at hp
  · cases hp
    exact h.of_eq rfl rfl rfl rfl rfl
  · cases hp

/-- A state is RUNNING or waiting exactly with CAUSE 0, so those two may be exchanged. -/
theorem Inv.withRun {s : State} (h : Inv s) (hs : s.run ≠ .faulted) {r : RunState} (hr : r ≠ .faulted) :
    Inv { s with run := r } where
  pc_lt := h.pc_lt
  stack_lt := h.stack_lt
  cause_run := ⟨⟨fun hc => absurd (h.cause_run.1.1 hc) hs, fun h' => absurd h' hr⟩, h.cause_run.2⟩
  mem_wf := h.mem_wf

end Sys2Proof.Machine
end

