-- ==== Sys2Proof/Laws/PerInstr.lean ====
section
/-! SUPPORT. One lemma for each constructor of Instr: the word an instruction is encoded as has the fixed bits of its row
of the opcode map (R74), whatever its operands. -/

namespace Sys2Proof.Laws.EncodesRow

/-- The row of an instruction selects its word. -/
def Statement (i : Instr) : Prop := i.row.selects (encode i) = true

theorem of_op (m : String) (v : Word) {w : Word} (hx : xField v = 0#4) (hk : kkField v = 0#8)
    (h : opField w = opField v) : Row.selects ⟨m, 0xF000#16, v⟩ w = true := by
  simp only [Row.selects, beq_iff_eq]
  exact (mask_op w hx hk).2 h

theorem of_opN (m : String) (v : Word) {w : Word} (hx : xField v = 0#4) (hk : kkField v = (nField v).setWidth 8)
    (h1 : opField w = opField v) (h2 : nField w = nField v) : Row.selects ⟨m, 0xF00F#16, v⟩ w = true := by
  simp only [Row.selects, beq_iff_eq]
  exact (mask_opN w hx hk).2 ⟨h1, h2⟩

theorem of_opKk (m : String) (v : Word) {w : Word} (hx : xField v = 0#4) (h1 : opField w = opField v)
    (h2 : kkField w = kkField v) : Row.selects ⟨m, 0xF0FF#16, v⟩ w = true := by
  simp only [Row.selects, beq_iff_eq]
  exact (mask_opKk w hx).2 ⟨h1, h2⟩

theorem cls : Statement (.cls) := rfl
theorem ret : Statement (.ret) := rfl
theorem jp (nnn : Addr) : Statement (.jp nnn) :=
  of_op "JP" 0x1000#16 rfl rfl (opField_ofNibbleAddr 0x1#4 nnn)
theorem call (nnn : Addr) : Statement (.call nnn) :=
  of_op "CALL" 0x2000#16 rfl rfl (opField_ofNibbleAddr 0x2#4 nnn)
theorem seVxKk (x : Nibble) (kk : Byte) : Statement (.seVxKk x kk) :=
  of_op "SE_Vx_kk" 0x3000#16 rfl rfl (opField_ofNibblesByte 0x3#4 x kk)
theorem sneVxKk (x : Nibble) (kk : Byte) : Statement (.sneVxKk x kk) :=
  of_op "SNE_Vx_kk" 0x4000#16 rfl rfl (opField_ofNibblesByte 0x4#4 x kk)
theorem seVxVy (x y : Nibble) : Statement (.seVxVy x y) :=
  of_opN "SE_Vx_Vy" 0x5000#16 rfl rfl (opField_ofNibbles 0x5#4 x y 0x0#4) (nField_ofNibbles 0x5#4 x y 0x0#4)
theorem ldVxKk (x : Nibble) (kk : Byte) : Statement (.ldVxKk x kk) :=
  of_op "LD_Vx_kk" 0x6000#16 rfl rfl (opField_ofNibblesByte 0x6#4 x kk)
theorem addVxKk (x : Nibble) (kk : Byte) : Statement (.addVxKk x kk) :=
  of_op "ADD_Vx_kk" 0x7000#16 rfl rfl (opField_ofNibblesByte 0x7#4 x kk)
theorem ldVxVy (x y : Nibble) : Statement (.ldVxVy x y) :=
  of_opN "LD_Vx_Vy" 0x8000#16 rfl rfl (opField_ofNibbles 0x8#4 x y 0x0#4) (nField_ofNibbles 0x8#4 x y 0x0#4)
theorem or (x y : Nibble) : Statement (.or x y) :=
  of_opN "OR" 0x8001#16 rfl rfl (opField_ofNibbles 0x8#4 x y 0x1#4) (nField_ofNibbles 0x8#4 x y 0x1#4)
theorem and (x y : Nibble) : Statement (.and x y) :=
  of_opN "AND" 0x8002#16 rfl rfl (opField_ofNibbles 0x8#4 x y 0x2#4) (nField_ofNibbles 0x8#4 x y 0x2#4)
theorem xor (x y : Nibble) : Statement (.xor x y) :=
  of_opN "XOR" 0x8003#16 rfl rfl (opField_ofNibbles 0x8#4 x y 0x3#4) (nField_ofNibbles 0x8#4 x y 0x3#4)
theorem addVxVy (x y : Nibble) : Statement (.addVxVy x y) :=
  of_opN "ADD_Vx_Vy" 0x8004#16 rfl rfl (opField_ofNibbles 0x8#4 x y 0x4#4) (nField_ofNibbles 0x8#4 x y 0x4#4)
theorem sub (x y : Nibble) : Statement (.sub x y) :=
  of_opN "SUB" 0x8005#16 rfl rfl (opField_ofNibbles 0x8#4 x y 0x5#4) (nField_ofNibbles 0x8#4 x y 0x5#4)
theorem shr (x y : Nibble) : Statement (.shr x y) :=
  of_opN "SHR" 0x8006#16 rfl rfl (opField_ofNibbles 0x8#4 x y 0x6#4) (nField_ofNibbles 0x8#4 x y 0x6#4)
theorem subn (x y : Nibble) : Statement (.subn x y) :=
  of_opN "SUBN" 0x8007#16 rfl rfl (opField_ofNibbles 0x8#4 x y 0x7#4) (nField_ofNibbles 0x8#4 x y 0x7#4)
theorem shl (x y : Nibble) : Statement (.shl x y) :=
  of_opN "SHL" 0x800E#16 rfl rfl (opField_ofNibbles 0x8#4 x y 0xE#4) (nField_ofNibbles 0x8#4 x y 0xE#4)
theorem sneVxVy (x y : Nibble) : Statement (.sneVxVy x y) :=
  of_opN "SNE_Vx_Vy" 0x9000#16 rfl rfl (opField_ofNibbles 0x9#4 x y 0x0#4) (nField_ofNibbles 0x9#4 x y 0x0#4)
theorem ldINnn (nnn : Addr) : Statement (.ldINnn nnn) :=
  of_op "LD_I_nnn" 0xA000#16 rfl rfl (opField_ofNibbleAddr 0xA#4 nnn)
theorem jpV0Nnn (nnn : Addr) : Statement (.jpV0Nnn nnn) :=
  of_op "JP_V0_nnn" 0xB000#16 rfl rfl (opField_ofNibbleAddr 0xB#4 nnn)
theorem rnd (x : Nibble) (kk : Byte) : Statement (.rnd x kk) :=
  of_op "RND" 0xC000#16 rfl rfl (opField_ofNibblesByte 0xC#4 x kk)
theorem drw (x y n : Nibble) : Statement (.drw x y n) :=
  of_op "DRW" 0xD000#16 rfl rfl (opField_ofNibbles 0xD#4 x y n)
theorem skp (x : Nibble) : Statement (.skp x) :=
  of_opKk "SKP" 0xE09E#16 rfl (opField_ofNibblesByte 0xE#4 x 0x9E#8) (kkField_ofNibblesByte 0xE#4 x 0x9E#8)
theorem sknp (x : Nibble) : Statement (.sknp x) :=
  of_opKk "SKNP" 0xE0A1#16 rfl (opField_ofNibblesByte 0xE#4 x 0xA1#8) (kkField_ofNibblesByte 0xE#4 x 0xA1#8)
theorem ldVxDt (x : Nibble) : Statement (.ldVxDt x) :=
  of_opKk "LD_Vx_DT" 0xF007#16 rfl (opField_ofNibblesByte 0xF#4 x 0x07#8) (kkField_ofNibblesByte 0xF#4 x 0x07#8)
theorem ldVxK (x : Nibble) : Statement (.ldVxK x) :=
  of_opKk "LD_Vx_K" 0xF00A#16 rfl (opField_ofNibblesByte 0xF#4 x 0x0A#8) (kkField_ofNibblesByte 0xF#4 x 0x0A#8)
theorem ldDtVx (x : Nibble) : Statement (.ldDtVx x) :=
  of_opKk "LD_DT_Vx" 0xF015#16 rfl (opField_ofNibblesByte 0xF#4 x 0x15#8) (kkField_ofNibblesByte 0xF#4 x 0x15#8)
theorem ldStVx (x : Nibble) : Statement (.ldStVx x) :=
  of_opKk "LD_ST_Vx" 0xF018#16 rfl (opField_ofNibblesByte 0xF#4 x 0x18#8) (kkField_ofNibblesByte 0xF#4 x 0x18#8)
theorem addIVx (x : Nibble) : Statement (.addIVx x) :=
  of_opKk "ADD_I_Vx" 0xF01E#16 rfl (opField_ofNibblesByte 0xF#4 x 0x1E#8) (kkField_ofNibblesByte 0xF#4 x 0x1E#8)
theorem ldFVx (x : Nibble) : Statement (.ldFVx x) :=
  of_opKk "LD_F_Vx" 0xF029#16 rfl (opField_ofNibblesByte 0xF#4 x 0x29#8) (kkField_ofNibblesByte 0xF#4 x 0x29#8)
theorem ldBVx (x : Nibble) : Statement (.ldBVx x) :=
  of_opKk "LD_B_Vx" 0xF033#16 rfl (opField_ofNibblesByte 0xF#4 x 0x33#8) (kkField_ofNibblesByte 0xF#4 x 0x33#8)
theorem ldMIVx (x : Nibble) : Statement (.ldMIVx x) :=
  of_opKk "LD_mI_Vx" 0xF055#16 rfl (opField_ofNibblesByte 0xF#4 x 0x55#8) (kkField_ofNibblesByte 0xF#4 x 0x55#8)
theorem ldVxMI (x : Nibble) : Statement (.ldVxMI x) :=
  of_opKk "LD_Vx_mI" 0xF065#16 rfl (opField_ofNibblesByte 0xF#4 x 0x65#8) (kkField_ofNibblesByte 0xF#4 x 0x65#8)

end Sys2Proof.Laws.EncodesRow
end

