-- ==== Sys2Proof/Laws/RunEnd.lean ====
section
/-! SUPPORT. A run taken apart at its first transaction, and the end of a run in each case. -/

namespace Sys2Proof.Machine

@[simp] theorem transactAll_nil (font : Font) (s : State) : transactAll font [] s = .next s := rfl

/-- A run whose first transaction completes goes on with the others. -/
theorem transactAll_cons {font : Font} {a : Transaction} {rest : List Transaction} {s t : State} {r : Response}
    (h : transact font a s = .next (t, r)) : transactAll font (a :: rest) s = transactAll font rest t := by
  simp only [transactAll, h]

/-- A run that completes completes its first transaction. -/
theorem transactAll_cons_next {font : Font} {a : Transaction} {rest : List Transaction} {s u : State}
    (h : transactAll font (a :: rest) s = .next u) :
    ∃ t r, transact font a s = .next (t, r) ∧ transactAll font rest t = .next u := by
  simp only [transactAll] at h
  split at h
  · rename_i t r ht
    exact ⟨t, r, ht, h⟩
  · cases h
  · cases h

/-- A run that begins at its end. -/
theorem endOfRun_of_atEnd (font : Font) {rest : List Transaction} {s : State} (h : AtEnd rest s) :
    endOfRun font rest s = some s := by
  cases rest with
  | nil => exact if_pos h
  | cons a rest => exact if_pos h

/-- A run that is not at its end goes on to its next transaction. -/
theorem endOfRun_cons {font : Font} {a : Transaction} {rest : List Transaction} {s t : State} {r : Response}
    (hs : ¬ AtEnd (a :: rest) s) (h : transact font a s = .next (t, r)) :
    endOfRun font (a :: rest) s = endOfRun font rest t := by
  simp only [endOfRun, if_neg hs, h]

end Sys2Proof.Machine
end

