-- ==== Sys2Proof/Laws/Step.lean ====
section
/-! SUPPORT. What a step can do, said once: the inversion of the cycle, and where the next word comes from. -/

namespace Sys2Proof.Machine

/-- Everything a step that answers a next state can have done (R80). -/
theorem cycle_next {execute : Instr → State → Result} {s t : State} (h : cycle execute s = .next t) :
    (∃ i, s.run = .running ∧ decodeWord (fetchWord s) = .ok i ∧ execute i (advancePc s) = .next t) ∨
      (∃ e, s.run = .running ∧ decodeWord (fetchWord s) = .error e ∧ t = advancePc s) ∨
      (∃ x, s.run = .awaitingKey x ∧ t = s) := by
  unfold cycle at h
  split at h
  · rename_i hr
    unfold runOne at h
    split at h
    · rename_i i hd
      exact .inl ⟨i, hr, hd, h⟩
    · rename_i e hd
      exact .inr (.inl ⟨e, hr, hd, (by cases h; rfl)⟩)
  · rename_i x hr
    exact .inr (.inr ⟨x, hr, (by cases h; rfl)⟩)
  · cases h

/-- A step of a RUNNING block whose word decodes (R83). -/
theorem cycle_of_decode {execute : Instr → State → Result} {s : State} {i : Instr} (hr : s.run = .running)
    (hd : decodeWord (fetchWord s) = .ok i) : cycle execute s = execute i (advancePc s) := by
  simp only [cycle, hr, runOne, hd]

/-- A step of a RUNNING block whose word is unallocated (R76). -/
theorem cycle_of_unallocated {execute : Instr → State → Result} {s : State} {e : DecodeReject} (hr : s.run = .running)
    (hd : decodeWord (fetchWord s) = .error e) : cycle execute s = .next (advancePc s) := by
  simp only [cycle, hr, runOne, hd]

/-- A step of a block that waits for a key (R154). -/
theorem cycle_of_awaiting {execute : Instr → State → Result} {s : State} {x : Nibble} (hr : s.run = .awaitingKey x) :
    cycle execute s = .next s := by
  simp only [cycle, hr]

/-- A step of a block that has faulted (R173). -/
theorem cycle_of_faulted {execute : Instr → State → Result} {s : State} (hr : s.run = .faulted) :
    cycle execute s = .fault (.latched s.cause) := by
  simp only [cycle, hr]

/-- A fetch finds the word that was placed at PC, whatever PC is. -/
theorem fetchWord_placeWord {s : State} (hs : memWf s.mem = true) (w : Word) : fetchWord (placeWord s w) = w := by
  have hpc : (placeWord s w).pc = s.pc := by
    show (writeBytes _ _ _).pc = _
    rw [writeBytes_eq]
  have hmem : ∀ a, readMem (placeWord s w) a =
      readMem (writeMem (writeMem s s.pc.toNat (w.extractLsb' 8 8)) (s.pc.toNat + 1) (w.extractLsb' 0 8)) a :=
    fun _ => rfl
  have hne : (s.pc.toNat + 1) % 4096 ≠ s.pc.toNat % 4096 := by omega
  simp only [fetchWord, hpc, fetchAt, hmem, readMem_writeMem (memWf_writeMem hs _ _), readMem_writeMem hs, hne,
    if_true, if_false]
  exact wordOfBytes_bytes w

end Sys2Proof.Machine
end

