-- ==== Sys2Proof/Tests/Slice0.lean ====
section
/-! SUPPORT. Tests, each on a small state and one step, with results taken from spec/95_test_vectors.md (the row's id in the
comment) or from the rule named; the smoke tests of WellFormed; and for every statement that has hypotheses a witness
that meets them. -/

namespace Sys2Proof.Tests

open Sys2Proof.Machine

/-! ### Helpers -/

/-- The state before a step of word `w` at 0x200. -/
def at200 (w : Word) (s : State := State.reset) : State :=
  writeBytes { s with pc := 0x200#16 } 0x200 (bytesOfWord w)

/-- What a step gives, looked at through `f`; none when it does not give a next state. -/
def afterStep {α : Type} (s : State) (f : State → α) : Option α :=
  match step s with
  | .next t    => some (f t)
  | .fault _   => none
  | .refused _ => none

/-- Reset with V1 and V2 set. -/
def v12 (a b : Byte) : State := writeV (writeV State.reset 1#4 a) 2#4 b

/-- Reset with VF set. -/
def vf (b : Byte) (s : State := State.reset) : State := writeV s regF b

/-! ### WellFormed: an ill-formed term for each check, refused -/

/-- R74's table has no two rows a word could match. -/
theorem test_table_well_formed : wellFormedTable opcodeTable = true := by decide

/-- A table with a second row inside an old one is refused. -/
theorem test_ambiguous_table_refused : wellFormedTable (⟨"X", 0xF00F#16, 0x6001#16⟩ :: opcodeTable) = false := by decide

/-- A row that fixes a bit outside its mask is refused. -/
theorem test_bad_row_refused : Row.wellFormed ⟨"X", 0xF000#16, 0x1001#16⟩ = false := by decide

/-- A word of each of R76's six spaces is refused (L2-F5, F7, F8, F9, F10, F11). -/
theorem test_unallocated_words_refused :
    ([0x00E1, 0x5121, 0x9121, 0x8128, 0xE19F, 0xF100] : List Word).all (fun w => !wellFormedWord w) = true := by decide

/-! ### Decoding: a word of every row, written out from its pattern in R74 -/

/-- Each pair is a word and what the decoder must read. -/
def decodesTo (ps : List (Nat × Instr)) : Bool := ps.all fun p => decodeTableWord 16 p.1 == some p.2

theorem test_decode_control :
    decodesTo [(0b0000000011101110, .ret), (0b0001001000110100, .jp 0x234), (0b0010001100000000, .call 0x300),
      (0b0011001101000010, .seVxKk 3 0x42), (0b0100001101000010, .sneVxKk 3 0x42), (0b0101000100100000, .seVxVy 1 2),
      (0b1001000100100000, .sneVxVy 1 2), (0b1011001100000000, .jpV0Nnn 0x300)] = true := by decide

theorem test_decode_alu :
    decodesTo [(0b0110101001000010, .ldVxKk 0xA 0x42), (0b0111000100000010, .addVxKk 1 2),
      (0b1000000100100000, .ldVxVy 1 2), (0b1000000100100001, .or 1 2), (0b1000000100100010, .and 1 2),
      (0b1000000100100011, .xor 1 2), (0b1000000100100100, .addVxVy 1 2), (0b1000000100100101, .sub 1 2)] = true := by
  decide

theorem test_decode_alu_rest :
    decodesTo [(0b1000000100100110, .shr 1 2), (0b1000000100100111, .subn 1 2), (0b1000000100101110, .shl 1 2),
      (0b1100000100001111, .rnd 1 0x0F), (0b1000111111110100, .addVxVy 0xF 0xF)] = true := by decide

theorem test_decode_display :
    decodesTo [(0b0000000011100000, .cls), (0b1101000100100101, .drw 1 2 5), (0b1101000100100000, .drw 1 2 0)] = true := by
  decide

theorem test_decode_keys_timers :
    decodesTo [(0b1110000110011110, .skp 1), (0b1110000110100001, .sknp 1), (0b1111001100000111, .ldVxDt 3),
      (0b1111001100001010, .ldVxK 3), (0b1111000100010101, .ldDtVx 1), (0b1111000100011000, .ldStVx 1)] = true := by
  decide

theorem test_decode_index_memory :
    decodesTo [(0b1010000100100011, .ldINnn 0x123), (0b1111000100011110, .addIVx 1), (0b1111000100101001, .ldFVx 1),
      (0b1111000100110011, .ldBVx 1), (0b1111001001010101, .ldMIVx 2), (0b1111001001100101, .ldVxMI 2)] = true := by decide

/-- A rejected word says which of R76's spaces it lies in. -/
theorem test_reject_names :
    decodeWord 0x0123#16 = .error (.unallocated0 0x0123#16) ∧ decodeWord 0x5121#16 = .error (.unallocated5 0x5121#16) ∧
      decodeWord 0x812F#16 = .error (.unallocated8 0x812F#16) ∧ decodeWord 0x9121#16 = .error (.unallocated9 0x9121#16) ∧
      decodeWord 0xE1A2#16 = .error (.unallocatedE 0xE1A2#16) ∧ decodeWord 0xF1FF#16 = .error (.unallocatedF 0xF1FF#16) :=
  ⟨rfl, rfl, rfl, rfl, rfl, rfl⟩

/-- Fewer than two bytes are no instruction (R70). -/
theorem test_truncated : decodeBytes [0x12#8] = .error .truncated := rfl

/-! ### The cycle -/

/-- L2-F1: big-endian fetch. -/
theorem test_fetch_big_endian : afterStep (at200 0x1234#16) (·.pc) = some 0x234#16 := by decide

/-- L2-F3: PC = 0xFFF fetches bytes 0xFFF and 0x000 (default FONT). -/
theorem test_fetch_wraps :
    afterStep (writeMem { State.reset with pc := 0xFFF#16 } 0xFFF 0x61#8) (fun t => (readV t 1#4, t.pc)) =
      some (0xF0#8, 0x001#16) := by decide

/-- L2-F5: an unallocated word only advances PC. -/
theorem test_unallocated_is_nop :
    step (at200 0x00E1#16) = .next { at200 0x00E1#16 with pc := 0x202#16 } := by rfl

/-- L2-F13: a latched fault is answered again. -/
theorem test_faulted_step :
    step { State.reset with run := .faulted, cause := 2#8 } = .fault (.latched 2#8) := rfl

/-- L2-R3: with nothing loaded the first step runs the font's first word, a no-op. -/
theorem test_reset_runs_font : step State.reset = .next { State.reset with pc := 0x002#16 } := rfl

/-! ### Control transfer -/

/-- L2-B6. -/
theorem test_ret :
    afterStep (at200 0x00EE#16 { State.reset with sp := 2, stack := (State.reset.stack.set 0 0x202#16).set 1 0x304#16 })
      (fun t => (t.pc, t.sp, t.stack[1])) = some (0x304#16, 1, 0x304#16) := by decide

/-- L2-B7: the fault of a RET on an empty stack is precise. -/
theorem test_ret_underflow :
    afterStep (at200 0x00EE#16) (fun t => (t.pc, t.sp, t.run, t.cause)) = some (0x200#16, 0, .faulted, 2#8) := by decide

/-- L2-B4: the 16th CALL succeeds. -/
theorem test_call_sixteenth :
    afterStep (at200 0x2300#16 { State.reset with sp := 15 }) (fun t => (t.pc, t.sp, t.stack[15])) =
      some (0x300#16, 16, 0x202#16) := by decide

/-- L2-B5: the 17th does not, and nothing but RUN and CAUSE changes. -/
theorem test_call_overflow :
    step (at200 0x2300#16 { State.reset with sp := 16 }) =
      .next { at200 0x2300#16 { State.reset with sp := 16 } with run := .faulted, cause := 1#8 } := rfl

/-- L2-B8 and L2-B10: a skip, and one that wraps. -/
theorem test_se_kk :
    afterStep (at200 0x3342#16 (writeV State.reset 3#4 0x42#8)) (·.pc) = some 0x204#16 ∧
      afterStep (placeWord { State.reset with pc := 0xFFE#16 } 0x3000#16) (·.pc) = some 0x002#16 := by decide

/-- L2-B9. -/
theorem test_sne_kk : afterStep (at200 0x4342#16 (writeV State.reset 3#4 0x42#8)) (·.pc) = some 0x202#16 := by decide

/-- R106's example, and R107's. -/
theorem test_se_sne_vy :
    afterStep (at200 0x5120#16 (v12 7 7)) (·.pc) = some 0x204#16 ∧
      afterStep (at200 0x9120#16 (v12 7 8)) (·.pc) = some 0x204#16 := by decide

/-- L2-B14. -/
theorem test_jp_v0 : afterStep (at200 0xBFFF#16 (writeV State.reset 0#4 0xFF#8)) (·.pc) = some 0x0FE#16 := by decide

/-! ### Loads and ALU -/

/-- L1-2. -/
theorem test_ld_kk : afterStep (at200 0x6A42#16) (fun t => (readV t 0xA#4, t.pc)) = some (0x42#8, 0x202#16) := by decide

/-- L2-A1: no flag. -/
theorem test_add_kk :
    afterStep (at200 0x7102#16 (vf 0x55 (v12 0xFF 0))) (fun t => (readV t 1#4, readV t regF)) = some (0x01#8, 0x55#8) := by
  decide

/-- R123's example. -/
theorem test_ld_vy : afterStep (at200 0x8120#16 (v12 5 9)) (readV · 1#4) = some 9#8 := by decide

/-- L2-A3 and the examples of R125 and R126. -/
theorem test_logic :
    afterStep (at200 0x8121#16 (vf 0x77 (v12 0xF0 0x0F))) (fun t => (readV t 1#4, readV t regF)) = some (0xFF#8, 0x77#8) ∧
      afterStep (at200 0x8122#16 (v12 0xF0 0x3C)) (readV · 1#4) = some 0x30#8 ∧
      afterStep (at200 0x8123#16 (v12 0xF0 0x3C)) (readV · 1#4) = some 0xCC#8 := by decide

/-- L1-3. -/
theorem test_add_carry :
    afterStep (at200 0x8124#16 (v12 0xFF 1)) (fun t => (readV t 1#4, readV t regF)) = some (0#8, 1#8) := by decide

/-- L2-A8: with x = F the result overwrites the carry. -/
theorem test_add_into_vf : afterStep (at200 0x8F24#16 (vf 0xFF (v12 0 1))) (readV · regF) = some 0#8 := by decide

/-- L2-A13: with x = F the subtraction reads the new flag. -/
theorem test_sub_into_vf : afterStep (at200 0x8F25#16 (vf 5 (v12 0 3))) (readV · regF) = some 0xFE#8 := by decide

/-- L2-A10 and L2-A14. -/
theorem test_sub :
    afterStep (at200 0x8125#16 (v12 5 5)) (fun t => (readV t 1#4, readV t regF)) = some (0#8, 0#8) ∧
      afterStep (at200 0x81F5#16 (vf 3 (v12 5 0))) (fun t => (readV t 1#4, readV t regF)) = some (4#8, 1#8) := by decide

/-- L2-A16 and L2-A18. -/
theorem test_shr :
    afterStep (at200 0x8126#16 (v12 1 0xAA)) (fun t => (readV t 1#4, readV t regF)) = some (0#8, 1#8) ∧
      afterStep (at200 0x8F26#16 (vf 3)) (readV · regF) = some 0#8 := by decide

/-- L2-A21 and L2-A23. -/
theorem test_subn :
    afterStep (at200 0x8127#16 (v12 0xFF 0)) (fun t => (readV t 1#4, readV t regF)) = some (1#8, 0#8) ∧
      afterStep (at200 0x81F7#16 (vf 5 (v12 2 0))) (fun t => (readV t 1#4, readV t regF)) = some (0xFF#8, 1#8) := by decide

/-- R131's example and L2-A26. -/
theorem test_shl :
    afterStep (at200 0x812E#16 (v12 0x81 0)) (fun t => (readV t 1#4, readV t regF)) = some (2#8, 1#8) ∧
      afterStep (at200 0x8F2E#16 (vf 0xC0)) (readV · regF) = some 2#8 := by decide

/-- L2-A28: `rand` given. -/
theorem test_rnd_with : readV (rndWith 0xAB#8 1#4 0x0F#8 State.reset) 1#4 = 0x0B#8 := by decide

/-- L2-A29: a mask of 0 gives 0 whatever the draw, and the draw is counted. -/
theorem test_rnd_masked (s : State) :
    ∃ t, exec (.rnd 1#4 0#8) s = .next t ∧ readV t 1#4 = 0#8 ∧ t.randDraws = s.randDraws + 1 :=
  ⟨_, rfl, by simp [rndWith], rfl⟩

/-! ### Framebuffer -/

/-- Reset with I = 0x300 and two bytes there. -/
def sprite (a b : Byte) (s : State) : State := writeBytes { s with i := 0x300#16 } 0x300 [a, b]

/-- L2-D1. -/
theorem test_cls :
    afterStep (at200 0x00E0#16 (vf 0x33 { State.reset with fb := flipPixel clearFb 3 4 }))
      (fun t => (pixel t.fb 3 4, readV t regF)) = some (false, 0x33#8) := by decide

/-- L2-D2: a sprite that wraps at both edges. -/
theorem test_drw_wraps :
    afterStep (at200 0xD122#16 (sprite 0xFF 0x81 (v12 60 31)))
      (fun t => ([pixel t.fb 63 31, pixel t.fb 3 31, pixel t.fb 4 31, pixel t.fb 60 0, pixel t.fb 61 0, pixel t.fb 3 0],
        readV t regF)) = some ([true, true, false, true, false, true], 0#8) := by decide

/-- L2-D6, and L2-D5 where a neighbour is no collision. -/
theorem test_drw_collision :
    afterStep (at200 0xD121#16 (sprite 0x80 0 { v12 0 0 with fb := flipPixel clearFb 0 0 }))
      (fun t => (pixel t.fb 0 0, readV t regF)) = some (false, 1#8) ∧
    afterStep (at200 0xD121#16 (sprite 0x80 0 { v12 0 0 with fb := flipPixel clearFb 1 0 }))
      (fun t => (pixel t.fb 0 0, pixel t.fb 1 0, readV t regF)) = some (true, true, 0#8) := by decide

/-! ### Keys and timers -/

/-- L2-K3: the key is the low nibble; and L2-K4. -/
theorem test_skp_sknp :
    afterStep (at200 0xE19E#16 (writeKey (v12 0x15 0) 5#4 true)) (·.pc) = some 0x204#16 ∧
      afterStep (at200 0xE1A1#16 (v12 5 0)) (·.pc) = some 0x204#16 := by decide

/-- L2-K5. -/
theorem test_ld_vx_dt : afterStep (at200 0xF307#16 { State.reset with dt := 0x3C#8 }) (readV · 3#4) = some 0x3C#8 := by
  decide

/-- L2-K6 (its step) and L2-K8. -/
theorem test_ld_dt_st :
    afterStep (at200 0xF115#16 (v12 2 0)) (fun t => (t.dt, t.st)) = some (2#8, 0#8) ∧
      afterStep (at200 0xF118#16 (v12 0x10 0)) (fun t => (t.dt, t.st)) = some (0#8, 0x10#8) := by decide

/-- L2-K9, first step: the wait begins, and V3 keeps its value. -/
theorem test_key_wait :
    afterStep (at200 0xF30A#16 (writeV State.reset 3#4 0x99#8)) (fun t => (t.pc, t.run, readV t 3#4, stepResult t)) =
      some (0x202#16, .awaitingKey 3#4, 0x99#8, .wait) := by decide

/-- L2-K9, the key: it completes the wait. -/
theorem test_key_down_completes :
    let t := keyDown 0xB#4 { State.reset with run := .awaitingKey 3#4 }
    (readKey t 0xB#4, readV t 3#4, t.run) = (true, 0x0B#8, .running) := by decide

/-- L2-K11: ticks and keys act while FAULTED. -/
theorem test_events_while_faulted :
    let s : State := { State.reset with run := .faulted, cause := 1#8, dt := 5#8 }
    (tickDelay s).dt = 4#8 ∧ readKey (keyDown 1#4 s) 1#4 = true ∧ (keyDown 1#4 s).run = .faulted := by decide

/-! ### Index register and memory -/

/-- L2-I1 and L2-I3. -/
theorem test_index_loads :
    afterStep (at200 0xA123#16) (·.i) = some 0x0123#16 ∧
      afterStep (at200 0xF11E#16 { v12 2 0 with i := 0xFFFF#16 }) (·.i) = some 0x0001#16 := by decide

/-- L2-I4 and L2-I5. -/
theorem test_ld_f :
    afterStep (at200 0xF129#16 (v12 0x0A 0)) (·.i) = some 0x0032#16 ∧
      afterStep (at200 0xF129#16 (v12 0xFF 0)) (·.i) = some 0x04FB#16 := by decide

/-- L2-I7: the digits of 255 across the end of memory. -/
theorem test_bcd :
    afterStep (at200 0xF133#16 { v12 0xFF 0 with i := 0x0FFE#16 })
      (fun t => (readMem t 0xFFE, readMem t 0xFFF, readMem t 0x000, t.i)) = some (2#8, 5#8, 5#8, 0x0FFE#16) := by decide

/-- L1-7. -/
theorem test_bcd_234 :
    afterStep (at200 0xF133#16 { v12 234 0 with i := 0x300#16 })
      (fun t => (readMem t 0x300, readMem t 0x301, readMem t 0x302)) = some (2#8, 3#8, 4#8) := by decide

/-- L2-I10. -/
theorem test_block_store :
    afterStep (at200 0xF255#16 (writeV { v12 2 3 with i := 0x300#16 } 0#4 1#8))
      (fun t => (readMem t 0x300, readMem t 0x301, readMem t 0x302, readMem t 0x303, t.i)) =
      some (1#8, 2#8, 3#8, 0#8, 0x300#16) := by decide

/-- L2-I12. -/
theorem test_block_load :
    afterStep (at200 0xF265#16 (writeV (writeBytes { State.reset with i := 0x300#16 } 0x300 [2, 5, 4]) 3#4 0x99#8))
      (fun t => (readV t 0#4, readV t 1#4, readV t 2#4, readV t 3#4)) = some (2#8, 5#8, 4#8, 0x99#8) := by decide

/-- L2-I11: no protection: a block store over glyph 0. -/
theorem test_store_over_font :
    readMem (storeRegs { State.reset with v := Vector.replicate 16 0x11#8, i := 0x0FF8#16 } 16) 0x000 = 0x11#8 := by decide

/-! ### Reset and load -/

/-- L1-1b and L2-R2: a program too long is refused whole, and an empty one only sets PC. -/
theorem test_load_sizes :
    load (List.replicate 3585 0#8) State.reset = (.oversizeProgram, State.reset) ∧
      load [] State.reset = (.ok, { State.reset with pc := 0x200#16 }) :=
  ⟨by unfold load; rw [if_pos (by rw [List.length_replicate]; decide)], rfl⟩

/-- L2-R4 and L2-R5: load leaves a fault latched, and reset clears it. -/
theorem test_load_then_reset_from_fault :
    let s := (load [0x12, 0x00] { State.reset with run := .faulted, cause := 1#8 }).2
    s.run = .faulted ∧ s.pc = 0x200#16 ∧ readMem s 0x200 = 0x12#8 ∧ doReset fontDefault s = State.reset := by decide

/-- L2-R1: reset under another FONT. -/
theorem test_reset_with_other_font :
    let t := doReset (Vector.replicate 80 0x55#8) (vf 9)
    readMem t 0 = 0x55#8 ∧ readMem t 79 = 0x55#8 ∧ readMem t 80 = 0#8 ∧ readV t regF = 0#8 := by decide

/-! ### The host's two functions -/

/-- The table's numbering of a word's bits, and the first step after reset running it. -/
theorem test_with_fetch_word :
    decodeTableWord 16 0x6A42 = some (.ldVxKk 0xA#4 0x42#8) ∧
      afterStep (State.reset.withFetchWord 16 0x6A42) (fun t => (readV t 0xA#4, t.pc)) = some (0x42#8, 2#16) := by decide

/-! ### Witnesses: states and operands that meet the hypotheses of the statements -/

/-- EncodeInvertsDecode, DecodeIsExactMatch. -/
theorem witness_decode : decodeWord 0x8124#16 = .ok (.addVxVy 1#4 2#4) ∧
    (Instr.addVxVy 1#4 2#4).row.selects 0x8124#16 = true ∧ (Instr.addVxVy 1#4 2#4).row ∈ opcodeTable :=
  ⟨rfl, rfl, by simp [opcodeTable, Instr.row]⟩

/-- The premise of each EncodedAs: a word with each mask and match (one of each mask). -/
theorem witness_masks : 0x00EE#16 &&& 0xFFFF#16 = 0x00EE#16 ∧ 0x1FFF#16 &&& 0xF000#16 = 0x1000#16 ∧
    0x8FF4#16 &&& 0xF00F#16 = 0x8004#16 ∧ 0xFF65#16 &&& 0xF0FF#16 = 0xF065#16 := by decide

/-- RetPopsTheReturnAddress: both ends of the depth, and the empty stack. -/
theorem witness_ret : ({ State.reset with sp := 1 } : State).sp.val = (0 : Fin 16).val + 1 ∧
    ({ State.reset with sp := 16 } : State).sp.val = (15 : Fin 16).val + 1 ∧ State.reset.sp.val = 0 := by decide

/-- CallPushesTheReturnAddress: both ends of the depth, another slot, and the full stack. -/
theorem witness_call : State.reset.sp.val = (0 : Fin 16).val ∧
    ({ State.reset with sp := 15 } : State).sp.val = (15 : Fin 16).val ∧ (1 : Fin 16) ≠ 0 ∧
    ({ State.reset with sp := 16 } : State).sp.val = 16 := by decide

/-- The skips: equal and different values, a key down and a key up, named by a value above 0xF. -/
theorem witness_skips : readV (v12 7 7) 1#4 = readV (v12 7 7) 2#4 ∧ readV (v12 7 8) 1#4 ≠ readV (v12 7 8) 2#4 ∧
    readV (v12 7 8) 1#4 = 7#8 ∧ readV (v12 7 8) 1#4 ≠ 8#8 ∧
    (5#4).toNat = (readV (writeKey (v12 0x15 0) 5#4 true) 1#4).toNat % 16 ∧
    readKey (writeKey (v12 0x15 0) 5#4 true) 5#4 = true ∧ readKey (v12 0x15 0) 5#4 = false := by decide

/-- Inv at reset, for the statements that assume it (RetAfterCallReturns, StepKeepsTheInvariant). -/
theorem witness_inv : Inv State.reset ∧ State.reset.sp.val < 16 ∧ ∃ t, step State.reset = .next t :=
  ⟨⟨by decide, by decide, ⟨by decide, by decide⟩, rfl⟩, by decide, ⟨_, rfl⟩⟩

/-- SubSetsStrictGreater, SubnSetsStrictGreater, AddSetsCarry, ShiftsMoveOneBitIntoVf: registers that are VF, that are not,
and both flags. -/
theorem witness_flags : (1#4 ≠ regF ∧ 2#4 ≠ regF) ∧ regF = 0xF#4 ∧
    (1 = if (readV (v12 5 3) 2#4).toNat < (readV (v12 5 3) 1#4).toNat then 1 else 0) ∧
    (0 = if (readV (v12 3 3) 2#4).toNat < (readV (v12 3 3) 1#4).toNat then 1 else 0) ∧
    (1 = if (readV (v12 3 5) 1#4).toNat < (readV (v12 3 5) 2#4).toNat then 1 else 0) := by decide

/-- DrwFlipsTheSpriteAndReportsCollision: a pixel hit, at the far corner, and one hit that was set. -/
theorem witness_drw : DrwHits (sprite 0x80 0 (v12 63 31)) 1#4 2#4 1#4 63 31 ∧
    ¬ DrwHits (sprite 0x80 0 (v12 63 31)) 1#4 2#4 0#4 63 31 ∧
    pixel (flipPixel clearFb 63 31) 63 31 = true :=
  ⟨⟨0, 0, by decide, by decide, by decide, by decide, by decide⟩, fun ⟨_, _, h, _⟩ => absurd h (by simp), by decide⟩

/-- DrawingTwiceRestoresTheScreen: the tallest sprite. -/
theorem witness_tall_sprite : (List.replicate 15 0xFF#8).length ≤ 15 := by decide

/-- OnlyKeyDownOrResetEndsTheWait, KeyEventsWriteTheKeyTable: a waiting block, and one that does not wait. -/
theorem witness_waiting : ({ State.reset with run := .awaitingKey 0xF#4 } : State).run = .awaitingKey 0xF#4 ∧
    (∀ x, State.reset.run ≠ .awaitingKey x) ∧ (0#4 : Nibble) ≠ 0xF#4 ∧
    transact fontDefault .diag { State.reset with run := .awaitingKey 0xF#4 } =
      .next ({ State.reset with run := .awaitingKey 0xF#4 }, .diag (diag { State.reset with run := .awaitingKey 0xF#4 })) :=
  ⟨rfl, (fun _ h => by cases h), by decide, rfl⟩

/-- The statements that assume memory in canonical form: at reset and with bytes listed, and registers up to x. -/
theorem witness_memory : memWf State.reset.mem = true ∧ memWf (sprite 1 2 State.reset).mem = true ∧
    (sprite 1 2 State.reset).mem ≠ [] ∧ (0xF#4 : Nibble).toNat ≤ (0xF#4 : Nibble).toNat ∧
    (0#4 : Nibble).toNat < (0xF#4 : Nibble).toNat ∧ 0 % 4096 ≠ 4095 % 4096 ∧ 4096 % 4096 = 0 % 4096 := by decide

/-- StepRunsTheDecodedInstruction. -/
theorem witness_step : (at200 0x1234#16).run = .running ∧
    decodeBytes [readMem (at200 0x1234#16) (at200 0x1234#16).pc.toNat,
      readMem (at200 0x1234#16) ((at200 0x1234#16).pc.toNat + 1)] = .ok (.jp 0x234#12, []) := ⟨rfl, rfl⟩

/-- UnallocatedWordIsANop. -/
theorem witness_unallocated : (at200 0x5121#16).run = .running ∧
    ∀ r ∈ opcodeTable, r.selects (fetchWord (at200 0x5121#16)) = false := by decide

/-- StackFaultsArePrecise: its two cases. -/
theorem witness_faults :
    ((at200 0x2300#16 { State.reset with sp := 16 }).run = .running ∧
      (at200 0x2300#16 { State.reset with sp := 16 }).pc.toNat < 4096 ∧
      decodeWord (fetchWord (at200 0x2300#16 { State.reset with sp := 16 })) = .ok (.call 0x300#12) ∧
      (at200 0x2300#16 { State.reset with sp := 16 }).sp.val = 16) ∧
    ((at200 0x00EE#16).run = .running ∧ (at200 0x00EE#16).pc.toNat < 4096 ∧
      decodeWord (fetchWord (at200 0x00EE#16)) = .ok .ret ∧ (at200 0x00EE#16).sp.val = 0) :=
  ⟨⟨rfl, by decide, rfl, by decide⟩, ⟨rfl, by decide, rfl, by decide⟩⟩

/-- OnlyResetLeavesAFault. -/
theorem witness_faulted : ({ State.reset with run := .faulted, cause := 2#8 } : State).run = .faulted ∧
    Transaction.load [] ≠ .reset ∧
    ∃ t r, transact fontDefault (.load []) { State.reset with run := .faulted, cause := 2#8 } = .next (t, r) :=
  ⟨rfl, by decide, ⟨_, _, rfl⟩⟩

/-- OnlyRndReadsTheRandomByte, StepIsStepWithTheFreeDraw: a word that is not RND, and one that is. -/
theorem witness_rnd : (∀ x kk, decodeWord (fetchWord (at200 0x1234#16)) ≠ .ok (.rnd x kk)) ∧
    (at200 0xC10F#16).run = .running ∧ decodeWord (fetchWord (at200 0xC10F#16)) = .ok (.rnd 1#4 0x0F#8) ∧
    (at200 0xC10F#16).run ≠ .faulted :=
  ⟨fun x kk h => (show (Except.ok (Instr.jp 0x234#12) : Except DecodeReject Instr) ≠ .ok (.rnd x kk) by simp) h, rfl, rfl,
    by decide⟩

/-- SelfJumpChangesNothing. -/
theorem witness_self_jump : (at200 0x1200#16).pc.toNat < 4096 ∧ SelfJump (at200 0x1200#16) :=
  ⟨by decide, rfl, by decide⟩

/-- NothingButTicksAndKeysAfterTheEnd, RunEndsAtItsFirstEndState: each of R204's conditions with transactions still offered,
and a state that meets none. -/
theorem witness_at_end :
    AtEnd [.step 0#8, .tickDelay, .keyDown 1#4] (at200 0x1200#16) ∧
    AtEnd [.keyDown 1#4] { State.reset with run := .faulted, cause := 1#8 } ∧
    AtEnd [.step 0#8, .keyUp 1#4] { State.reset with run := .awaitingKey 0xF#4 } ∧
    ¬ AtEnd [.step 0#8, .keyDown 1#4] { State.reset with run := .awaitingKey 0xF#4 } ∧ ¬ AtEnd [] State.reset ∧
    (∀ a ∈ ([.step 0#8, .tickDelay, .keyDown 1#4] : List Transaction), a ≠ .reset ∧ ∀ bytes, a ≠ .load bytes) := by
  refine ⟨by decide, by decide, by decide, by decide, by decide, ?_⟩
  simp

/-- A key press during the run of F00A 1202 ends the wait, and the run ends at the self-jump; without it, at the wait
(R154, R204). -/
theorem test_end_of_run :
    (endOfRun fontDefault [.load [0xF0, 0x0A, 0x12, 0x02], .step 0#8, .keyDown 5#4, .step 0#8] State.reset).map
        (fun t => (t.pc, t.run, readV t 0#4)) = some (0x202#16, .running, 5#8) ∧
    (endOfRun fontDefault [.load [0xF0, 0x0A, 0x12, 0x02], .step 0#8, .keyUp 5#4, .step 0#8] State.reset).map
        (fun t => (t.pc, t.run, readV t 0#4)) = some (0x202#16, .awaitingKey 0#4, 0#8) := by decide

/-- WithFetchWordRunsTheWord. -/
theorem witness_fetch_word : memWf State.reset.mem = true ∧ decodeTableWord 16 0xD125 = some (.drw 1#4 2#4 5#4) := by decide

/-- LoadCopiesTheProgram: both sides of the limit; ReadPortsWriteNothing: coordinates off the screen. -/
theorem witness_load_and_ports : (List.replicate 3584 1#8).length ≤ 3584 ∧ 3584 < (List.replicate 3585 1#8).length ∧
    (64 ≤ 64 ∨ 32 ≤ 0) ∧ (64 ≤ 0 ∨ 32 ≤ 32) := by
  rw [List.length_replicate, List.length_replicate]; decide

/-- ExecWritesOnlyItsRegistersAndBytes, SpecialRegistersHaveOnlyTheirWriters: an instruction that completes. -/
theorem witness_exec : memWf State.reset.mem = true ∧ exec (.ldINnn 0x123#12) State.reset = .next (writeI State.reset 0x123#16) ∧
    (writeI State.reset 0x123#16).i ≠ State.reset.i := ⟨rfl, rfl, by decide⟩

/-- SpecialRegistersHaveOnlyTheirWriters: each register does change under a writer. -/
theorem witness_writers :
    (∃ t, exec (.call 0x300#12) State.reset = .next t ∧ t.sp ≠ State.reset.sp) ∧
    (∃ t, exec (.ldDtVx 1#4) (v12 2 0) = .next t ∧ t.dt ≠ (v12 2 0).dt) ∧
    (∃ t, exec (.ldStVx 1#4) (v12 2 0) = .next t ∧ t.st ≠ (v12 2 0).st) ∧
    (∃ t, exec (.drw 0#4 0#4 1#4) State.reset = .next t ∧ pixel t.fb 0 0 ≠ pixel State.reset.fb 0 0) :=
  ⟨⟨_, rfl, by decide⟩, ⟨_, rfl, by decide⟩, ⟨_, rfl, by decide⟩, ⟨_, rfl, by decide⟩⟩

/-- EveryReachableStateMeetsTheInvariant, RunEndsAtItsFirstEndState: a run with a load, a step and a key. -/
theorem witness_run : ∃ t, transactAll fontDefault [.load [0x12, 0x00], .step 0#8, .keyDown 3#4] (resetWith fontDefault) = .next t :=
  ⟨_, rfl⟩

end Sys2Proof.Tests
end

/-! ## Proofs: the invariant along a run, and what an instruction may write (spec/00_scope.md) -/

namespace Sys2Proof.Machine

/-! ### RET and CALL taken apart -/

/-- A pop changes the stack pointer and nothing else (R27). -/
theorem eq_of_pop {s t : State} {a : Word} (h : pop s = some (a, t)) : t = { s with sp := t.sp } := by
  unfold pop at h
  split at h
  · cases h; rfl
  · cases h

/-- A push changes the stack and its pointer and nothing else (R27). -/
theorem eq_of_push {s t : State} {a : Word} (h : push s a = some t) :
    t = { s with sp := t.sp, stack := t.stack } := by
  unfold push at h
  split at h
  · cases h; rfl
  · cases h

/-- Everything RET can do (R101, R171). -/
theorem execRet_next {s t : State} (h : execRet s = .next t) :
    (∃ a u, pop s = some (a, u) ∧ t = writePc u a) ∨ (pop s = none ∧ t = takeFault causeUnderflow s) := by
  unfold execRet at h
  split at h
  · rename_i a u hp
    cases h
    exact .inl ⟨a, u, hp, rfl⟩
  · rename_i hp
    cases h
    exact .inr ⟨hp, rfl⟩

/-- Everything CALL can do (R103, R170). -/
theorem execCall_next {nnn : Addr} {s t : State} (h : execCall nnn s = .next t) :
    (∃ u, push s s.pc = some u ∧ t = writePc u (zextAddr nnn)) ∨
      (push s s.pc = none ∧ t = takeFault causeOverflow s) := by
  unfold execCall at h
  split at h
  · rename_i u hp
    cases h
    exact .inl ⟨u, hp, rfl⟩
  · rename_i hp
    cases h
    exact .inr ⟨hp, rfl⟩

/-! ### The invariant is kept by every instruction -/

/-- A store through `I` keeps the invariant. -/
theorem Inv.writeData {s : State} (h : Inv s) (j : Nat) (b : Byte) : Inv (writeData s j b) :=
  h.withMem (memWf_writeData h.mem_wf j b)

/-- A block of bytes keeps the invariant. -/
theorem Inv.writeBytes {s : State} (h : Inv s) (a : Nat) (bs : List Byte) : Inv (writeBytes s a bs) :=
  writeBytes_eq s a bs ▸ h.withMem (memWf_writeBytes h.mem_wf a bs)

/-- A block store keeps the invariant. -/
theorem Inv.storeRegs {s : State} (h : Inv s) (n : Nat) : Inv (storeRegs s n) :=
  storeRegs_eq s n ▸ h.withMem (memWf_storeRegs h.mem_wf n)

/-- A block load keeps the invariant. -/
theorem Inv.loadRegs {s : State} (h : Inv s) (n : Nat) : Inv (loadRegs s n) :=
  loadRegs_eq s n ▸ h.of_eq rfl rfl rfl rfl rfl

/-- RET keeps the invariant: PC is written modulo 4096, and the fault's cause is 2 (R31). -/
theorem inv_execRet {s t : State} (hs : Inv s) (h : execRet s = .next t) : Inv t := by
  obtain ⟨a, u, hp, rfl⟩ | ⟨-, rfl⟩ := execRet_next h
  · exact (hs.pop hp).writePc a
  · exact hs.takeFault (by decide) (by decide)

/-- CALL keeps the invariant: the address it pushes is a PC value (R14), and the fault's cause is 1 (R31). -/
theorem inv_execCall {nnn : Addr} {s t : State} (hs : Inv s) (h : execCall nnn s = .next t) : Inv t := by
  obtain ⟨u, hp, rfl⟩ | ⟨-, rfl⟩ := execCall_next h
  · exact (hs.push hs.pc_lt hp).writePc _
  · exact hs.takeFault (by decide) (by decide)

/-- The meaning of instructions `execute` keeps the invariant from every state that has not faulted. A state that has
faulted is left out because Fx0A there would leave CAUSE non-zero; no step executes in one (R80). -/
def KeepsInv (execute : Instr → State → Result) : Prop :=
  ∀ (i : Instr) (s t : State), Inv s → s.run ≠ .faulted → execute i s = .next t → Inv t

/-- `exec` keeps the invariant: an instruction writes PC only modulo 4096, the stack only with PC, memory only by stores,
and RUN and CAUSE only together or, for Fx0A, to wait. -/
theorem keepsInv_exec : KeepsInv exec := by
  intro i s t hs hrun h
  cases i with
  | ret => exact inv_execRet hs h
  | call nnn => exact inv_execCall hs h
  | jp nnn | jpV0Nnn nnn => cases h; exact hs.writePc _
  | seVxKk x kk | sneVxKk x kk | seVxVy x y | sneVxVy x y | skp x | sknp x => cases h; exact hs.skipIf _
  | ldVxKk x kk | addVxKk x kk | ldVxVy x y | or x y | and x y | xor x y | ldVxDt x =>
    cases h; exact hs.writeV _ _
  | addVxVy x y | sub x y | shr x y | subn x y | shl x y => cases h; exact (hs.writeV _ _).writeV _ _
  | cls | rnd x kk | drw x y n | ldINnn nnn | addIVx x | ldFVx x | ldDtVx x | ldStVx x =>
    cases h; exact hs.of_eq rfl rfl rfl rfl rfl
  | ldVxK x => cases h; exact hs.withRun hrun (by simp)
  | ldBVx x => cases h; exact ((hs.writeData _ _).writeData _ _).writeData _ _
  | ldMIVx x => cases h; exact hs.storeRegs _
  | ldVxMI x => cases h; exact hs.loadRegs _

/-- With the random byte given, RND still writes one register and the others are those of `exec` (R83). -/
theorem keepsInv_executeWith (rand : Byte) : KeepsInv (executeWith rand) := by
  intro i s t hs hrun h
  unfold executeWith at h
  split at h
  · cases h; exact hs.writeV _ _
  · exact keepsInv_exec _ _ _ hs hrun h

/-! ### The invariant is kept by every step and every transaction -/

/-- A step executes only in a RUNNING block, after the advance, so it keeps the invariant when its instructions do. -/
theorem KeepsInv.cycle {execute : Instr → State → Result} (hex : KeepsInv execute) {s t : State} (hs : Inv s)
    (h : cycle execute s = .next t) : Inv t := by
  have hadv : Inv (advancePc s) := hs.writePc _
  obtain ⟨i, hrun, -, hi⟩ | ⟨-, -, -, rfl⟩ | ⟨-, -, rfl⟩ := cycle_next h
  · exact hex i _ t hadv (by simp [hrun]) hi
  · exact hadv
  · exact hs

/-- Settles O50: from the inversion of the cycle and the invariant of each instruction. -/
theorem stepKeepsTheInvariant : Obligations.StepKeepsTheInvariant :=
  fun _ _ hs h => keepsInv_exec.cycle hs h

/-- Everything `step(rand)` can do: the cycle's next state, or, of a block that has faulted, no change (R80, R173). -/
theorem stepWith_next {rand : Byte} {s t : State} {r : StepResult} (h : stepWith rand s = .next (t, r)) :
    cycle (executeWith rand) s = .next t ∨ t = s := by
  unfold stepWith at h
  split at h
  · rename_i u hc
    cases h
    exact .inl hc
  · cases h
    exact .inr rfl
  · cases h

theorem inv_stepWith {rand : Byte} {s t : State} {r : StepResult} (hs : Inv s)
    (h : stepWith rand s = .next (t, r)) : Inv t := by
  obtain hc | rfl := stepWith_next h
  · exact (keepsInv_executeWith rand).cycle hs hc
  · exact hs

/-- The machine right after reset with the default `FONT` meets the invariant (R35). -/
theorem inv_reset : Inv State.reset where
  pc_lt := by decide
  stack_lt := by decide
  cause_run := ⟨by decide, by decide⟩
  mem_wf := rfl

theorem inv_resetWith (font : Font) : Inv (resetWith font) := inv_reset.writeBytes 0 font.toList

theorem inv_load {s : State} (hs : Inv s) (bytes : List Byte) : Inv (load bytes s).2 := by
  unfold load
  split
  · exact hs
  · exact (hs.writeBytes _ _).writePc _

theorem inv_tickDelay {s : State} (hs : Inv s) : Inv (tickDelay s) := by
  unfold tickDelay
  split
  · exact hs.of_eq rfl rfl rfl rfl rfl
  · exact hs

theorem inv_tickSound {s : State} (hs : Inv s) : Inv (tickSound s) := by
  unfold tickSound
  split
  · exact hs.of_eq rfl rfl rfl rfl rfl
  · exact hs

theorem Inv.writeKey {s : State} (h : Inv s) (k : Nibble) (b : Bool) : Inv (writeKey s k b) :=
  h.of_eq rfl rfl rfl rfl rfl

/-- `key_down` takes RUN from a wait to RUNNING and to nothing else (R183). -/
theorem inv_keyDown {s : State} (hs : Inv s) (k : Nibble) : Inv (keyDown k s) := by
  have hkey : Inv (writeKey s k true) := hs.writeKey k true
  unfold keyDown
  split
  · rename_i x hrun
    exact (hkey.writeV x _).withRun (by simp [hrun]) (by simp)
  · exact hkey
  · exact hkey

/-- A `step` transaction is `step(rand)` with its answer passed on. -/
theorem transact_step_next {font : Font} {rand : Byte} {s t : State} {r : Response}
    (h : transact font (.step rand) s = .next (t, r)) : ∃ r', stepWith rand s = .next (t, r') := by
  simp only [transact] at h
  split at h
  · rename_i u r' hstep
    cases h
    exact ⟨r', hstep⟩
  · cases h
  · cases h

/-- An `is_set` transaction that answers leaves the state (R185). -/
theorem transact_isSet_next {font : Font} {x y : Nat} {s t : State} {r : Response}
    (h : transact font (.isSet x y) s = .next (t, r)) : t = s := by
  simp only [transact] at h
  split at h
  · cases h; rfl
  · cases h

theorem inv_transact {font : Font} {a : Transaction} {s t : State} {r : Response} (hs : Inv s)
    (h : transact font a s = .next (t, r)) : Inv t := by
  cases a with
  | reset => cases h; exact (inv_resetWith font).of_eq rfl rfl rfl rfl rfl
  | load bytes => cases h; exact inv_load hs bytes
  | step rand =>
    obtain ⟨r', hstep⟩ := transact_step_next h
    exact inv_stepWith hs hstep
  | tickDelay => cases h; exact inv_tickDelay hs
  | tickSound => cases h; exact inv_tickSound hs
  | keyDown k => cases h; exact inv_keyDown hs k
  | keyUp k => cases h; exact hs.writeKey k false
  | isSet x y => exact transact_isSet_next h ▸ hs
  | diag => cases h; exact hs

/-- A run keeps the invariant: induction over its transactions (R11). -/
theorem inv_transactAll {font : Font} {ts : List Transaction} {s t : State} (hs : Inv s)
    (h : transactAll font ts s = .next t) : Inv t := by
  induction ts generalizing s with
  | nil => cases h; exact hs
  | cons a rest ih =>
    obtain ⟨u, r, hu, hrest⟩ := transactAll_cons_next h
    exact ih (inv_transact hs hu) hrest

/-- Settles O51: each transaction keeps the invariant, so a run does, from the reset state as from any other. -/
theorem everyReachableStateMeetsTheInvariant : Obligations.EveryReachableStateMeetsTheInvariant :=
  ⟨inv_resetWith, fun _ _ _ _ _ hs h => inv_transact hs h, fun font _ _ h => inv_transactAll (inv_resetWith font) h⟩

/-! ### The registers and bytes an instruction writes -/

/-- Nothing has changed in the register file but the registers listed, and nothing in memory but the bytes listed. -/
def WritesOnly (rs : List Nibble) (as : List Nat) (s t : State) : Prop := RegsSameBut rs s t ∧ MemSameBut as s t

/-- An update of neither the register file nor memory. -/
theorem writesOnly_of_eq {s t : State} (hv : t.v = s.v) (hm : t.mem = s.mem) : WritesOnly [] [] s t :=
  ⟨regsSame_of_v hv, fun _ _ _ => by rw [readMem, readMem, hm]⟩

theorem OnlyRegs.writesOnly {rs : List Nibble} {s t : State} (h : OnlyRegs rs s t) : WritesOnly rs [] s t := by
  obtain ⟨hv, -, -, -, -, hm, -⟩ := h
  exact ⟨hv, hm⟩

theorem OnlyMem.writesOnly {as : List Nat} {s t : State} (h : OnlyMem as s t) : WritesOnly [] as s t := by
  obtain ⟨hv, -, -, -, -, hm, -⟩ := h
  exact ⟨hv, hm⟩

/-- A store through `I` leaves every other byte alone (R166). -/
theorem memSameBut_writeData {s : State} (hs : memWf s.mem = true) (j : Nat) (b : Byte) :
    MemSameBut [dataAddr s j] s (writeData s j b) := by
  intro a ha hother
  rw [readMem_writeData hs, Nat.mod_eq_of_lt ha]
  exact if_neg fun h => hother (by simp [h])

theorem MemSameBut.trans {as bs : List Nat} {s t u : State} (hst : MemSameBut as s t) (htu : MemSameBut bs t u) :
    MemSameBut (as ++ bs) s u := by
  intro a ha hother
  rw [List.mem_append, not_or] at hother
  exact (htu a ha hother.2).trans (hst a ha hother.1)

/-- Fx33 writes its three bytes, each address computed from the I it starts with (R163). -/
theorem writesOnly_execLdBVx {x : Nibble} {s t : State} (hs : memWf s.mem = true) (h : execLdBVx x s = .next t) :
    WritesOnly [] [dataAddr s 0, dataAddr s 1, dataAddr s 2] s t := by
  cases h
  have hs0 := memWf_writeData hs 0 (readV s x / 100#8)
  have hs1 := memWf_writeData hs0 1 (readV s x / 10#8 % 10#8)
  exact ⟨regsSame_of_v rfl,
    ((memSameBut_writeData hs 0 _).trans (memSameBut_writeData hs0 1 _)).trans (memSameBut_writeData hs1 2 _)⟩

theorem writesOnly_execRet {s t : State} (h : execRet s = .next t) : WritesOnly [] [] s t := by
  obtain ⟨a, u, hp, rfl⟩ | ⟨-, rfl⟩ := execRet_next h
  · rw [eq_of_pop hp]; exact writesOnly_of_eq rfl rfl
  · exact writesOnly_of_eq rfl rfl

theorem writesOnly_execCall {nnn : Addr} {s t : State} (h : execCall nnn s = .next t) : WritesOnly [] [] s t := by
  obtain ⟨u, hp, rfl⟩ | ⟨-, rfl⟩ := execCall_next h
  · rw [eq_of_push hp]; exact writesOnly_of_eq rfl rfl
  · exact writesOnly_of_eq rfl rfl

theorem writesOnly_exec {i : Instr} {s t : State} (hs : memWf s.mem = true) (h : exec i s = .next t) :
    WritesOnly (writtenRegs i) (storedAddrs i s) s t := by
  cases i with
  | ret => exact writesOnly_execRet h
  | call nnn => exact writesOnly_execCall h
  | seVxKk x kk | sneVxKk x kk | seVxVy x y | sneVxVy x y | skp x | sknp x =>
    cases h; exact (onlyRegs_skipIf _ s).writesOnly
  | cls | jp nnn | jpV0Nnn nnn | ldINnn nnn | addIVx x | ldFVx x | ldDtVx x | ldStVx x | ldVxK x =>
    cases h; exact writesOnly_of_eq rfl rfl
  | ldVxKk x kk | addVxKk x kk | ldVxVy x y | or x y | and x y | xor x y | ldVxDt x =>
    cases h; exact (onlyRegs_writeV s x _).writesOnly
  | rnd x kk => cases h; exact (onlyRegs_writeV (drawRand s).2 x _).writesOnly
  | drw x y n => cases h; exact (onlyRegs_writeV { s with fb := _ } regF _).writesOnly
  | addVxVy x y | sub x y | shr x y | subn x y | shl x y =>
    cases h; exact (onlyRegs_writeV_flag s x _ _).writesOnly
  | ldBVx x => exact writesOnly_execLdBVx hs h
  | ldMIVx x => cases h; exact (onlyMem_storeRegs hs _).writesOnly
  | ldVxMI x => cases h; exact (onlyRegs_loadRegs s x.isLt).writesOnly

/-- Settles O47: by the frame of each instruction's updates. -/
theorem execWritesOnlyItsRegistersAndBytes : Obligations.ExecWritesOnlyItsRegistersAndBytes :=
  fun _ _ _ hs h => writesOnly_exec hs h

end Sys2Proof.Machine

/-! ## Proofs: the special registers, and RET after CALL (spec/10_state.md) -/

namespace Sys2Proof.Machine

/-! ### The invariant at reset -/

/-- Settles O49: the reset state meets the invariant field by field. -/
theorem resetMeetsTheInvariant : Obligations.ResetMeetsTheInvariant := inv_reset

/-! ### RET after CALL -/

/-- An update of PC, the stack, its pointer, RUN and CAUSE changes no data. -/
theorem dataSame_of_eq {s t : State}
    (h : t = { s with pc := t.pc, sp := t.sp, stack := t.stack, run := t.run, cause := t.cause }) : DataSame s t := by
  rw [h]
  exact ⟨regsSame_of_v rfl, rfl, ⟨rfl, rfl⟩, fun _ => rfl, fun _ _ => rfl, fun _ _ _ => rfl, rfl⟩

/-- CALL on a stack that takes the return address (R103). -/
theorem exec_call_of_push {s u : State} (nnn : Addr) (h : push s s.pc = some u) :
    exec (.call nnn) s = .next (writePc u (zextAddr nnn)) := by
  simp only [exec, execCall, h]

/-- RET on a stack that gives a return address (R101). -/
theorem exec_ret_of_pop {s u : State} {a : Word} (h : pop s = some (a, u)) : exec .ret s = .next (writePc u a) := by
  simp only [exec, execRet, h]

/-- A pop gives back the address the push before it wrote, whatever PC is by then; the slot keeps it (R27). -/
theorem pop_writePc_of_push {s t : State} {a : Word} (h : push s a = some t) (w : Word) :
    pop (writePc t w) = some (a, writePc { s with stack := t.stack } w) := by
  unfold push at h
  split at h
  · cases h
    simp [pop, writePc]
  · cases h

/-- A push leaves the slots in use alone (R27). -/
theorem stack_of_push {s t : State} {a : Word} (h : push s a = some t) {j : Fin 16} (hj : j.val < s.sp.val) :
    t.stack[j] = s.stack[j] := by
  unfold push at h
  split at h
  · rename_i hlt
    cases h
    exact Vector.getElem_set_ne hlt _ (by omega)
  · cases h

/-- A PC value is not reduced by a write to PC (R23). -/
theorem pc_mod_eq {w : Word} (h : w.toNat < 4096) : w % 4096#16 = w := by
  apply BitVec.eq_of_toNat_eq
  rw [BitVec.toNat_umod]
  exact Nat.mod_eq_of_lt h

/-- Settles O11: the pop of RET meets the push of CALL, and the address pushed is a PC value. -/
theorem retAfterCallReturns : Obligations.RetAfterCallReturns := by
  intro s nnn hs hsp
  have hpush := push_of_lt hsp s.pc
  exact ⟨_, _, exec_call_of_push nnn hpush, exec_ret_of_pop (pop_writePc_of_push hpush _), pc_mod_eq hs.pc_lt, rfl,
    fun _ hj => stack_of_push hpush hj, dataSame_of_eq rfl, rfl, rfl⟩

/-! ### The writers of the special registers -/

/-- I, the stack, the timers, the pixels and the keys are as they were. -/
def SpecialsSame (s t : State) : Prop :=
  t.i = s.i ∧ StackSame s t ∧ TimersSame s t ∧ PixelsSame s t ∧ KeysSame s t

/-- An update of the general registers, PC, RUN, CAUSE, memory and the count of draws is of no special register. -/
theorem specialsSame_of_eq {s t : State}
    (h : t = { s with v := t.v, pc := t.pc, run := t.run, cause := t.cause, mem := t.mem, randDraws := t.randDraws }) :
    SpecialsSame s t := by
  rw [h]
  exact ⟨rfl, ⟨rfl, rfl⟩, ⟨rfl, rfl⟩, fun _ _ => rfl, fun _ => rfl⟩

theorem OnlyRegs.specialsSame {rs : List Nibble} {s t : State} (h : OnlyRegs rs s t) : SpecialsSame s t := by
  obtain ⟨-, hi, htimers, hkeys, hpixels, -, hstack, -⟩ := h
  exact ⟨hi, hstack, htimers, hpixels, hkeys⟩

theorem specialsSame_storeRegs (s : State) (n : Nat) : SpecialsSame s (storeRegs s n) := by
  rw [storeRegs_eq]
  exact specialsSame_of_eq rfl

/-- RET, with or without its fault, changes no data (R101, R172). -/
theorem dataSame_execRet {s t : State} (h : execRet s = .next t) : DataSame s t := by
  obtain ⟨a, u, hp, rfl⟩ | ⟨-, rfl⟩ := execRet_next h
  · rw [eq_of_pop hp]; exact dataSame_of_eq rfl
  · exact dataSame_of_eq rfl

/-- CALL, with or without its fault, changes no data (R103, R172). -/
theorem dataSame_execCall {nnn : Addr} {s t : State} (h : execCall nnn s = .next t) : DataSame s t := by
  obtain ⟨u, hp, rfl⟩ | ⟨-, rfl⟩ := execCall_next h
  · rw [eq_of_push hp]; exact dataSame_of_eq rfl
  · exact dataSame_of_eq rfl

/-- Each special register changes only if its proposition holds, and the keys do not change. -/
def SpecialsChangeOnlyIf (writesI writesStack writesDt writesSt writesPixels : Prop) (s t : State) : Prop :=
  (t.i ≠ s.i → writesI) ∧ (¬ StackSame s t → writesStack) ∧ (t.dt ≠ s.dt → writesDt) ∧ (t.st ≠ s.st → writesSt) ∧
    (¬ PixelsSame s t → writesPixels) ∧ KeysSame s t

section
variable {s t : State} {writesI writesStack writesDt writesSt writesPixels : Prop}

theorem SpecialsSame.changeOnlyIf (h : SpecialsSame s t) :
    SpecialsChangeOnlyIf writesI writesStack writesDt writesSt writesPixels s t := by
  obtain ⟨hi, hstack, ⟨hdt, hst⟩, hpixels, hkeys⟩ := h
  exact ⟨absurd hi, absurd hstack, absurd hdt, absurd hst, absurd hpixels, hkeys⟩

theorem DataSame.changeOnlyIf (h : DataSame s t) (hstack : writesStack) :
    SpecialsChangeOnlyIf writesI writesStack writesDt writesSt writesPixels s t := by
  obtain ⟨-, hi, ⟨hdt, hst⟩, hkeys, hpixels, -⟩ := h
  exact ⟨absurd hi, fun _ => hstack, absurd hdt, absurd hst, absurd hpixels, hkeys⟩

end

/-- Settles O48: an instruction that is no writer changes no special register, RET and CALL change no data, and each
other writer changes the one component named for it. -/
theorem specialRegistersHaveOnlyTheirWriters : Obligations.SpecialRegistersHaveOnlyTheirWriters := by
  intro i s t h
  cases i with
  | ret => exact (dataSame_execRet h).changeOnlyIf (.inl rfl)
  | call nnn => exact (dataSame_execCall h).changeOnlyIf (.inr ⟨nnn, rfl⟩)
  | cls | drw x y n | ldINnn nnn | addIVx x | ldFVx x | ldDtVx x | ldStVx x =>
    cases h; simp [StackSame, PixelsSame, KeysSame, readKey]
  | seVxKk x kk | sneVxKk x kk | seVxVy x y | sneVxVy x y | skp x | sknp x =>
    cases h; exact (onlyRegs_skipIf _ s).specialsSame.changeOnlyIf
  | ldMIVx x => cases h; exact (specialsSame_storeRegs s _).changeOnlyIf
  | ldVxMI x => cases h; exact (onlyRegs_loadRegs s x.isLt).specialsSame.changeOnlyIf
  | jp nnn | jpV0Nnn nnn | ldVxKk x kk | addVxKk x kk | ldVxVy x y | or x y | and x y | xor x y | addVxVy x y
  | sub x y | shr x y | subn x y | shl x y | rnd x kk | ldVxDt x | ldVxK x | ldBVx x =>
    cases h; exact (specialsSame_of_eq rfl).changeOnlyIf

end Sys2Proof.Machine

/-! ## Proofs: memory, load and the default font (spec/20_memory.md) -/

namespace Sys2Proof.Machine

/-! ### Reads and fetches after a write -/

/-- A word of two bytes, the high byte first (R52). -/
theorem wordOfBytes_toNat (hi lo : Byte) : (wordOfBytes hi lo).toNat = 256 * hi.toNat + lo.toNat := by
  have hlo : lo.toNat < 2 ^ 8 := lo.isLt
  rw [wordOfBytes, BitVec.toNat_append, ← Nat.shiftLeft_add_eq_or_of_lt hlo, Nat.shiftLeft_eq, Nat.mul_comm]

/-- A fetch is 256 times its first byte plus its second (R52). -/
theorem fetchAt_toNat (s : State) (a : Nat) :
    (fetchAt s a).toNat = 256 * (readMem s a).toNat + (readMem s (a + 1)).toNat := wordOfBytes_toNat _ _

/-- Settles O33: each of the reads, a fetch's two among them, is one read after the write. -/
theorem memoryReadsTheLastWrite : Obligations.MemoryReadsTheLastWrite := by
  intro s a b v hs
  have hread := readMem_writeMem hs a (b := v)
  refine ⟨?_, fun hne => ?_, ?_⟩
  · rw [hread, if_pos rfl]
  · rw [hread, if_neg hne]
  · rw [fetchAt_toNat, hread, hread]

/-! ### Load (R58) -/

/-- A program of at most 3584 bytes is copied to 0x200. -/
theorem load_of_le {bytes : List Byte} (h : bytes.length ≤ 3584) (s : State) :
    load bytes s = (.ok, writePc (writeBytes s 0x200 bytes) 0x200#16) := if_neg (Nat.not_lt.2 h)

/-- A longer program is refused and the state kept (D15). -/
theorem load_of_lt {bytes : List Byte} (h : 3584 < bytes.length) (s : State) :
    load bytes s = (.oversizeProgram, s) := if_pos h

/-- The copy of a program ends inside the address space, so what an address reads as after it needs no reduction. -/
theorem readMem_load {s : State} (hs : memWf s.mem = true) {bytes : List Byte} (hfit : bytes.length ≤ 3584) {a : Nat}
    (ha : a < 4096) :
    readMem (load bytes s).2 a =
      if h : 0x200 ≤ a ∧ a < 0x200 + bytes.length then bytes[a - 0x200]'(by omega) else readMem s a := by
  rw [load_of_le hfit]
  exact readMem_writeBytes hs (by omega) ha

/-- A load that is not refused changes memory and PC only, whatever RUN is (R58). -/
theorem load_eq {bytes : List Byte} (h : bytes.length ≤ 3584) (s : State) :
    (load bytes s).2 = { s with pc := 0x200#16, mem := (load bytes s).2.mem } := by
  rw [load_of_le h, writeBytes_eq]
  rfl

/-- Settles O45: by the two sides of the limit, the bytes read back through `readMem_load`. -/
theorem loadCopiesTheProgram : Obligations.LoadCopiesTheProgram := by
  intro font s bytes hs
  refine ⟨fun hfit => ⟨(load bytes s).2, ?_, ?_, fun j hj => ?_, fun a ha hout => ?_, ?_⟩, fun hlong => ?_⟩
  · rw [transact, load_of_le hfit]
  · rw [load_eq hfit]
  · have hin : 0x200 ≤ 0x200 + j ∧ 0x200 + j < 0x200 + bytes.length := by omega
    rw [readMem_load hs hfit (by omega), dif_pos hin]
    simp only [Nat.add_sub_cancel_left]
  · rw [readMem_load hs hfit ha, dif_neg (by omega)]
  · rw [load_eq hfit]
  · rw [transact, load_of_lt hlong]

/-! ### The default font at reset (R57) -/

/-- In the reset state memory lists nothing, so a byte reads as the reset contents (R56). -/
theorem readMem_reset {a : Nat} (ha : a < 4096) : readMem State.reset a = resetByte a :=
  congrArg resetByte (Nat.mod_eq_of_lt ha)

/-- Inside the font the reset contents are its bytes. -/
theorem resetByte_of_lt {a : Nat} (ha : a < fontDefaultBytes.length) : resetByte a = fontDefaultBytes[a] :=
  (List.getElem_eq_getD 0#8).symm

/-- A byte that memory reads as at reset is not listed when it is written. -/
theorem writeMem_reset {a : Nat} (ha : a < 4096) : writeMem State.reset a (resetByte a) = State.reset := by
  have hmem : memSet [] a (resetByte a) = [] := if_pos rfl
  rw [writeMem, Nat.mod_eq_of_lt ha]
  exact congrArg (fun m => { State.reset with mem := m }) hmem

/-- So neither is a block of them: induction over the bytes. -/
theorem writeBytes_reset {a : Nat} {bs : List Byte} (hfit : a + bs.length ≤ 4096)
    (h : ∀ j, (hj : j < bs.length) → bs[j] = resetByte (a + j)) : writeBytes State.reset a bs = State.reset := by
  induction bs generalizing a with
  | nil => rfl
  | cons b bs ih =>
    rw [List.length_cons] at hfit
    have hb : b = resetByte a := h 0 (by simp)
    rw [writeBytes, hb, writeMem_reset (by omega)]
    refine ih (by omega) fun j hj => ?_
    rw [Nat.add_assoc, Nat.add_comm 1]
    exact h (j + 1) (by simpa using hj)

/-- The font a machine has by default is what its memory reads as with nothing listed (log entry 1). -/
theorem resetWith_fontDefault : resetWith fontDefault = State.reset :=
  writeBytes_reset (bs := fontDefaultBytes) (by decide) fun j hj => by rw [Nat.zero_add, resetByte_of_lt hj]

/-- The first 80 bytes of memory at reset are the font, in order. -/
theorem map_readMem_reset : (List.range 80).map (readMem State.reset) = fontDefaultBytes := by
  refine List.ext_getElem rfl fun j hj hj' => ?_
  have hlt : j < 80 := hj'
  rw [List.getElem_map, List.getElem_range, readMem_reset (by omega), resetByte_of_lt hj']

/-- Settles O44: the font is written over the reset contents it is equal to; its bytes are the table's. -/
theorem resetStateHoldsTheDefaultFont : Obligations.ResetStateHoldsTheDefaultFont := by
  refine ⟨resetWith_fontDefault, rfl, fun a => ?_, map_readMem_reset⟩
  rw [readMem_reset (by omega)]
  exact resetByte_of_lt a.isLt

end Sys2Proof.Machine

/-! ## Proofs: the decoder, the encoder and the opcode map; the step (spec/30_encoding.md) -/

namespace Sys2Proof

/-! ### A word is built from its own fields (R71, R73) -/

section
variable {w : Word} {a n : Nibble} {kk : Byte}

/-- Format `NNN`. -/
theorem ofNibbleAddr_nnnField (hop : opField w = a) : ofNibbleAddr a (nnnField w) = w := by
  subst hop
  apply BitVec.eq_of_toNat_eq
  rw [ofNibbleAddr_toNat, opField_toNat, nnnField_toNat]
  omega

/-- Formats `XKK` and `X`. -/
theorem ofNibblesByte_xField (hop : opField w = a) (hkk : kkField w = kk) : ofNibblesByte a (xField w) kk = w := by
  subst hop hkk
  apply BitVec.eq_of_toNat_eq
  rw [ofNibblesByte_toNat, opField_toNat, xField_toNat, kkField_toNat]
  omega

/-- Formats `XY` and `XYN`. -/
theorem ofNibbles_xField_yField (hop : opField w = a) (hn : nField w = n) :
    ofNibbles a (xField w) (yField w) n = w := by
  subst hop hn
  apply BitVec.eq_of_toNat_eq
  rw [ofNibbles_toNat, opField_toNat, xField_toNat, yField_toNat, nField_toNat]
  omega

end

/-! ### Decoding what was encoded -/

/-- The decoder reads back the fields an instruction was encoded from: first the family, by the first nibble, then the
member of the family, by the low nibble or the low byte (R75). -/
theorem decodeWord_encode (i : Instr) : decodeWord (encode i) = .ok i := by
  cases i with
  | cls | ret => rfl
  | jp nnn | call nnn | ldINnn nnn | jpV0Nnn nnn => simp [encode, decodeWord]
  | seVxKk x kk | sneVxKk x kk | ldVxKk x kk | addVxKk x kk | rnd x kk => simp [encode, decodeWord]
  | drw x y n => simp [encode, decodeWord]
  | seVxVy x y => simp [encode, decodeWord, decodeFamily5]
  | ldVxVy x y | or x y | and x y | xor x y | addVxVy x y | sub x y | shr x y | subn x y | shl x y =>
    simp [encode, decodeWord, decodeFamily8]
  | sneVxVy x y => simp [encode, decodeWord, decodeFamily9]
  | skp x | sknp x => simp [encode, decodeWord, decodeFamilyE]
  | ldVxDt x | ldVxK x | ldDtVx x | ldStVx x | addIVx x | ldFVx x | ldBVx x | ldMIVx x | ldVxMI x =>
    simp [encode, decodeWord, decodeFamilyF]

/-- The same through memory: the two bytes are consumed and none is left (R52, R70). -/
theorem decodeBytes_encodeBytes (i : Instr) : decodeBytes (encodeBytes i) = .ok (i, []) := by
  refine decodeBytes_pair.2 ?_
  rw [wordOfBytes_bytes]
  exact decodeWord_encode i

/-- Settles O2: by the fields of each instruction's word. -/
theorem decodeInvertsEncode : Obligations.DecodeInvertsEncode :=
  fun i => ⟨decodeWord_encode i, decodeBytes_encodeBytes i⟩

/-! ### Encoding what was decoded -/

section
variable {w : Word} {i : Instr}

theorem encode_of_decodeFamily0 (hop : opField w = 0x0#4) (h : decodeFamily0 w = .ok i) : encode i = w := by
  unfold decodeFamily0 at h
  obtain ⟨⟨hkk, hx⟩, h⟩ | ⟨-, h⟩ := ite_eq_ok h
  · cases h; exact word_ext hop.symm hx.symm hkk.symm
  obtain ⟨⟨hkk, hx⟩, h⟩ | ⟨-, h⟩ := ite_eq_ok h
  · cases h; exact word_ext hop.symm hx.symm hkk.symm
  cases h

theorem encode_of_decodeFamily5 (hop : opField w = 0x5#4) (h : decodeFamily5 w = .ok i) : encode i = w := by
  unfold decodeFamily5 at h
  obtain ⟨hn, h⟩ | ⟨-, h⟩ := ite_eq_ok h
  · cases h; exact ofNibbles_xField_yField hop hn
  cases h

/-- Each member of family 8 is encoded with the low nibble it was decoded by. -/
theorem encode_of_decodeFamily8 (hop : opField w = 0x8#4) (h : decodeFamily8 w = .ok i) : encode i = w := by
  unfold decodeFamily8 at h
  repeat' split at h
  all_goals cases h <;> exact ofNibbles_xField_yField hop ‹_›

theorem encode_of_decodeFamily9 (hop : opField w = 0x9#4) (h : decodeFamily9 w = .ok i) : encode i = w := by
  unfold decodeFamily9 at h
  obtain ⟨hn, h⟩ | ⟨-, h⟩ := ite_eq_ok h
  · cases h; exact ofNibbles_xField_yField hop hn
  cases h

theorem encode_of_decodeFamilyE (hop : opField w = 0xE#4) (h : decodeFamilyE w = .ok i) : encode i = w := by
  unfold decodeFamilyE at h
  obtain ⟨hkk, h⟩ | ⟨-, h⟩ := ite_eq_ok h
  · cases h; exact ofNibblesByte_xField hop hkk
  obtain ⟨hkk, h⟩ | ⟨-, h⟩ := ite_eq_ok h
  · cases h; exact ofNibblesByte_xField hop hkk
  cases h

/-- Each member of family F is encoded with the low byte it was decoded by. -/
theorem encode_of_decodeFamilyF (hop : opField w = 0xF#4) (h : decodeFamilyF w = .ok i) : encode i = w := by
  unfold decodeFamilyF at h
  repeat' split at h
  all_goals cases h <;> exact ofNibblesByte_xField hop ‹_›

/-- The decoder's last family is what the fifteen before it leave. -/
theorem nibble_eq_F {a : Nibble} (h0 : a ≠ 0x0#4) (h1 : a ≠ 0x1#4) (h2 : a ≠ 0x2#4) (h3 : a ≠ 0x3#4) (h4 : a ≠ 0x4#4)
    (h5 : a ≠ 0x5#4) (h6 : a ≠ 0x6#4) (h7 : a ≠ 0x7#4) (h8 : a ≠ 0x8#4) (h9 : a ≠ 0x9#4) (hA : a ≠ 0xA#4)
    (hB : a ≠ 0xB#4) (hC : a ≠ 0xC#4) (hD : a ≠ 0xD#4) (hE : a ≠ 0xE#4) : a = 0xF#4 := by bv_omega

/-- No bit of a word that decodes is lost: the family fixes the first nibble, and the fields are the operands. -/
theorem encode_of_decodeWord (h : decodeWord w = .ok i) : encode i = w := by
  unfold decodeWord at h
  obtain ⟨h0, h⟩ | ⟨h0, h⟩ := ite_eq_ok h
  · exact encode_of_decodeFamily0 h0 h
  obtain ⟨h1, h⟩ | ⟨h1, h⟩ := ite_eq_ok h
  · cases h; exact ofNibbleAddr_nnnField h1
  obtain ⟨h2, h⟩ | ⟨h2, h⟩ := ite_eq_ok h
  · cases h; exact ofNibbleAddr_nnnField h2
  obtain ⟨h3, h⟩ | ⟨h3, h⟩ := ite_eq_ok h
  · cases h; exact ofNibblesByte_xField h3 rfl
  obtain ⟨h4, h⟩ | ⟨h4, h⟩ := ite_eq_ok h
  · cases h; exact ofNibblesByte_xField h4 rfl
  obtain ⟨h5, h⟩ | ⟨h5, h⟩ := ite_eq_ok h
  · exact encode_of_decodeFamily5 h5 h
  obtain ⟨h6, h⟩ | ⟨h6, h⟩ := ite_eq_ok h
  · cases h; exact ofNibblesByte_xField h6 rfl
  obtain ⟨h7, h⟩ | ⟨h7, h⟩ := ite_eq_ok h
  · cases h; exact ofNibblesByte_xField h7 rfl
  obtain ⟨h8, h⟩ | ⟨h8, h⟩ := ite_eq_ok h
  · exact encode_of_decodeFamily8 h8 h
  obtain ⟨h9, h⟩ | ⟨h9, h⟩ := ite_eq_ok h
  · exact encode_of_decodeFamily9 h9 h
  obtain ⟨hA, h⟩ | ⟨hA, h⟩ := ite_eq_ok h
  · cases h; exact ofNibbleAddr_nnnField hA
  obtain ⟨hB, h⟩ | ⟨hB, h⟩ := ite_eq_ok h
  · cases h; exact ofNibbleAddr_nnnField hB
  obtain ⟨hC, h⟩ | ⟨hC, h⟩ := ite_eq_ok h
  · cases h; exact ofNibblesByte_xField hC rfl
  obtain ⟨hD, h⟩ | ⟨hD, h⟩ := ite_eq_ok h
  · cases h; exact ofNibbles_xField_yField hD rfl
  obtain ⟨hE, h⟩ | ⟨hE, h⟩ := ite_eq_ok h
  · exact encode_of_decodeFamilyE hE h
  exact encode_of_decodeFamilyF (nibble_eq_F h0 h1 h2 h3 h4 h5 h6 h7 h8 h9 hA hB hC hD hE) h

end

/-- Settles O3: by inversion of the decoder, family by family. -/
theorem encodeInvertsDecode : Obligations.EncodeInvertsDecode := fun _ _ h => encode_of_decodeWord h

/-! ### The decoder and the opcode map (R74, R75) -/

/-- The instruction of the row of `i` whose operands are the fields of `w`. -/
def Instr.withFields (i : Instr) (w : Word) : Instr :=
  match i with
  | .cls => .cls
  | .ret => .ret
  | .jp _ => .jp (nnnField w)
  | .call _ => .call (nnnField w)
  | .seVxKk _ _ => .seVxKk (xField w) (kkField w)
  | .sneVxKk _ _ => .sneVxKk (xField w) (kkField w)
  | .seVxVy _ _ => .seVxVy (xField w) (yField w)
  | .ldVxKk _ _ => .ldVxKk (xField w) (kkField w)
  | .addVxKk _ _ => .addVxKk (xField w) (kkField w)
  | .ldVxVy _ _ => .ldVxVy (xField w) (yField w)
  | .or _ _ => .or (xField w) (yField w)
  | .and _ _ => .and (xField w) (yField w)
  | .xor _ _ => .xor (xField w) (yField w)
  | .addVxVy _ _ => .addVxVy (xField w) (yField w)
  | .sub _ _ => .sub (xField w) (yField w)
  | .shr _ _ => .shr (xField w) (yField w)
  | .subn _ _ => .subn (xField w) (yField w)
  | .shl _ _ => .shl (xField w) (yField w)
  | .sneVxVy _ _ => .sneVxVy (xField w) (yField w)
  | .ldINnn _ => .ldINnn (nnnField w)
  | .jpV0Nnn _ => .jpV0Nnn (nnnField w)
  | .rnd _ _ => .rnd (xField w) (kkField w)
  | .drw _ _ _ => .drw (xField w) (yField w) (nField w)
  | .skp _ => .skp (xField w)
  | .sknp _ => .sknp (xField w)
  | .ldVxDt _ => .ldVxDt (xField w)
  | .ldVxK _ => .ldVxK (xField w)
  | .ldDtVx _ => .ldDtVx (xField w)
  | .ldStVx _ => .ldStVx (xField w)
  | .addIVx _ => .addIVx (xField w)
  | .ldFVx _ => .ldFVx (xField w)
  | .ldBVx _ => .ldBVx (xField w)
  | .ldMIVx _ => .ldMIVx (xField w)
  | .ldVxMI _ => .ldVxMI (xField w)

theorem row_withFields (i : Instr) (w : Word) : (i.withFields w).row = i.row := by cases i <;> rfl

/-- A word with the fixed bits of a row is the encoding of that row's instruction with the word's fields as operands: what
the mask leaves out is an operand, and what it fixes the encoder writes. -/
theorem encode_withFields {i : Instr} {w : Word} (h : w &&& i.row.mask = i.row.value) : encode (i.withFields w) = w := by
  cases i with simp only [Instr.row] at h
  | cls | ret => exact h.symm.trans BitVec.and_allOnes
  | jp nnn | call nnn | ldINnn nnn | jpV0Nnn nnn =>
    exact ofNibbleAddr_nnnField ((mask_op w rfl rfl).1 h)
  | seVxKk x kk | sneVxKk x kk | ldVxKk x kk | addVxKk x kk | rnd x kk =>
    exact ofNibblesByte_xField ((mask_op w rfl rfl).1 h) rfl
  | drw x y n =>
    exact ofNibbles_xField_yField ((mask_op w rfl rfl).1 h) rfl
  | seVxVy x y | ldVxVy x y | or x y | and x y | xor x y | addVxVy x y | sub x y | shr x y | subn x y | shl x y
  | sneVxVy x y =>
    obtain ⟨hop, hn⟩ := (mask_opN w rfl rfl).1 h
    exact ofNibbles_xField_yField hop hn
  | skp x | sknp x | ldVxDt x | ldVxK x | ldDtVx x | ldStVx x | addIVx x | ldFVx x | ldBVx x | ldMIVx x | ldVxMI x =>
    obtain ⟨hop, hkk⟩ := (mask_opKk w rfl).1 h
    exact ofNibblesByte_xField hop hkk

/-- Every row's words decode to its instruction with the word's fields as operands (R74). -/
theorem encodedAs_row (i : Instr) : Machine.EncodedAs i.row.mask i.row.value i.withFields := by
  intro w h
  have hdecode := decodeWord_encode (i.withFields w)
  rwa [encode_withFields h] at hdecode

theorem decodeWord_of_selects {i : Instr} {w : Word} (h : i.row.selects w = true) :
    decodeWord w = .ok (i.withFields w) := encodedAs_row i w (eq_of_beq h)

open Laws.EncodesRow in
/-- The row of an instruction selects its word. -/
theorem selects_encode : ∀ i : Instr, i.row.selects (encode i) = true
  | .cls => cls
  | .ret => ret
  | .jp nnn => jp nnn
  | .call nnn => call nnn
  | .seVxKk x kk => seVxKk x kk
  | .sneVxKk x kk => sneVxKk x kk
  | .seVxVy x y => seVxVy x y
  | .ldVxKk x kk => ldVxKk x kk
  | .addVxKk x kk => addVxKk x kk
  | .ldVxVy x y => ldVxVy x y
  | .or x y => Laws.EncodesRow.or x y
  | .and x y => Laws.EncodesRow.and x y
  | .xor x y => Laws.EncodesRow.xor x y
  | .addVxVy x y => addVxVy x y
  | .sub x y => sub x y
  | .shr x y => shr x y
  | .subn x y => subn x y
  | .shl x y => shl x y
  | .sneVxVy x y => sneVxVy x y
  | .ldINnn nnn => ldINnn nnn
  | .jpV0Nnn nnn => jpV0Nnn nnn
  | .rnd x kk => rnd x kk
  | .drw x y n => drw x y n
  | .skp x => skp x
  | .sknp x => sknp x
  | .ldVxDt x => ldVxDt x
  | .ldVxK x => ldVxK x
  | .ldDtVx x => ldDtVx x
  | .ldStVx x => ldStVx x
  | .addIVx x => addIVx x
  | .ldFVx x => ldFVx x
  | .ldBVx x => ldBVx x
  | .ldMIVx x => ldMIVx x
  | .ldVxMI x => ldVxMI x

/-- The row of an instruction that a word decodes to selects the word. -/
theorem selects_of_decodeWord {w : Word} {i : Instr} (h : decodeWord w = .ok i) : i.row.selects w = true := by
  have hsel := selects_encode i
  rwa [encode_of_decodeWord h] at hsel

/-- The map has the row of every instruction, since a row does not depend on the operands. -/
theorem row_mem_opcodeTable (i : Instr) : i.row ∈ opcodeTable := by
  cases i <;> simp [opcodeTable, Instr.row]

/-- Every row of the map is the row of an instruction. -/
theorem exists_row_of_mem_opcodeTable {r : Row} (h : r ∈ opcodeTable) : ∃ i : Instr, i.row = r := by
  obtain ⟨i, -, hi⟩ := List.mem_map.1 h
  exact ⟨i, hi⟩

/-- A word decodes exactly when some row of the map selects it (R74, R75). -/
theorem decodes_iff_selected (w : Word) :
    (∃ i, decodeWord w = .ok i) ↔ ∃ r ∈ opcodeTable, r.selects w = true := by
  constructor
  · rintro ⟨i, h⟩
    exact ⟨i.row, row_mem_opcodeTable i, selects_of_decodeWord h⟩
  · rintro ⟨r, hr, hsel⟩
    obtain ⟨i, rfl⟩ := exists_row_of_mem_opcodeTable hr
    exact ⟨_, decodeWord_of_selects hsel⟩

/-- Two rows that select one word are the row of the instruction it decodes to. -/
theorem row_unique {w : Word} {r q : Row} (hr : r ∈ opcodeTable) (hq : q ∈ opcodeTable) (hrw : r.selects w = true)
    (hqw : q.selects w = true) : r = q := by
  obtain ⟨i, rfl⟩ := exists_row_of_mem_opcodeTable hr
  obtain ⟨j, rfl⟩ := exists_row_of_mem_opcodeTable hq
  have hij : i.withFields w = j.withFields w :=
    Except.ok.inj ((decodeWord_of_selects hrw).symm.trans (decodeWord_of_selects hqw))
  rw [← row_withFields i w, hij, row_withFields]

/-- Settles O4: the decoder and the map agree in both directions, and decoding has one result. -/
theorem decodeIsExactMatch : Obligations.DecodeIsExactMatch :=
  ⟨rfl, fun _ i h => ⟨row_mem_opcodeTable i, selects_of_decodeWord h⟩, decodes_iff_selected,
    fun _ _ _ hr hq hrw hqw => row_unique hr hq hrw hqw⟩

/-- Settles O1: the decoder is run on each of the seven words. -/
theorem specWordsDecode : Obligations.SpecWordsDecode := ⟨rfl, rfl, rfl, rfl, rfl, rfl, rfl⟩

end Sys2Proof

namespace Sys2Proof.Machine

/-! ### Which instructions fault, and which draw -/

/-- CALL on a full stack (R103, R170). -/
theorem exec_call_of_full {s : State} (nnn : Addr) (h : s.sp.val = 16) :
    exec (.call nnn) s = .next (takeFault causeOverflow s) := by
  simp only [exec, execCall, push_of_full h]

/-- RET on an empty stack (R101, R171). -/
theorem exec_ret_of_empty {s : State} (h : s.sp.val = 0) : exec .ret s = .next (takeFault causeUnderflow s) := by
  simp only [exec, execRet, pop_of_empty h]

/-- A fault is latched from `s` to `t` only if it was before or it is the one `raised` says, and CAUSE changes only into a
latched fault (R31, R175). -/
def FaultsOnlyIf (raised : Prop) (s t : State) : Prop :=
  (t.run = .faulted → s.run = .faulted ∨ raised) ∧ (t.cause ≠ s.cause → t.run = .faulted)

theorem StatusSame.faultsOnlyIf {s t : State} (h : StatusSame s t) (raised : Prop) : FaultsOnlyIf raised s t := by
  obtain ⟨hrun, hcause⟩ := h
  exact ⟨fun hf => .inl (hrun ▸ hf), absurd hcause⟩

theorem FaultTaken.faultsOnlyIf {s t : State} {c : Byte} {raised : Prop} (h : FaultTaken c s t) (hraised : raised) :
    FaultsOnlyIf raised s t := by
  obtain ⟨-, -, hrun, -⟩ := h
  exact ⟨fun _ => .inr hraised, fun _ => hrun⟩

theorem statusSame_storeRegs (s : State) (n : Nat) : StatusSame s (storeRegs s n) := by
  rw [storeRegs_eq]; exact ⟨rfl, rfl⟩

theorem statusSame_loadRegs (s : State) (n : Nat) : StatusSame s (loadRegs s n) := by
  rw [loadRegs_eq]; exact ⟨rfl, rfl⟩

theorem statusSame_skipIf (c : Bool) (s : State) : StatusSame s (skipIf c s) := ⟨skipIf_run s c, skipIf_cause s c⟩

/-- Settles O38: CALL and RET by the depth of the stack; every other instruction leaves RUN and CAUSE, or, Fx0A, waits. -/
theorem onlyCallAndRetFault : Obligations.OnlyCallAndRetFault := by
  intro i s
  cases i with
  | call nnn =>
    obtain hlt | hfull : s.sp.val < 16 ∨ s.sp.val = 16 := by omega
    · have hpush := push_of_lt hlt s.pc
      exact ⟨_, exec_call_of_push nnn hpush, StatusSame.faultsOnlyIf ⟨rfl, rfl⟩ _⟩
    · exact ⟨_, exec_call_of_full nnn hfull,
        (faultTaken_takeFault _ s).faultsOnlyIf (.inl ⟨⟨nnn, rfl⟩, hfull, rfl⟩)⟩
  | ret =>
    obtain hempty | hpos := Nat.eq_zero_or_pos s.sp.val
    · exact ⟨_, exec_ret_of_empty hempty, (faultTaken_takeFault _ s).faultsOnlyIf (.inr ⟨rfl, hempty, rfl⟩)⟩
    · exact ⟨_, exec_ret_of_pop (pop_of_pos hpos), StatusSame.faultsOnlyIf ⟨rfl, rfl⟩ _⟩
  | ldVxK x => exact ⟨_, rfl, nofun, absurd rfl⟩
  | ldMIVx x => exact ⟨_, rfl, (statusSame_storeRegs s _).faultsOnlyIf _⟩
  | ldVxMI x => exact ⟨_, rfl, (statusSame_loadRegs s _).faultsOnlyIf _⟩
  | seVxKk x kk | sneVxKk x kk | seVxVy x y | sneVxVy x y | skp x | sknp x =>
    exact ⟨_, rfl, (statusSame_skipIf _ s).faultsOnlyIf _⟩
  | cls | jp nnn | jpV0Nnn nnn | ldVxKk x kk | addVxKk x kk | ldVxVy x y | or x y | and x y | xor x y | addVxVy x y
  | sub x y | shr x y | subn x y | shl x y | rnd x kk | drw x y n | ldINnn nnn | addIVx x | ldFVx x | ldBVx x
  | ldVxDt x | ldDtVx x | ldStVx x =>
    exact ⟨_, rfl, StatusSame.faultsOnlyIf ⟨rfl, rfl⟩ _⟩

/-- An instruction other than RND leaves the count of draws (log entry 3). -/
theorem randDraws_exec {i : Instr} {s t : State} (hi : ∀ x kk, i ≠ .rnd x kk) (h : exec i s = .next t) :
    t.randDraws = s.randDraws := by
  cases i with
  | rnd x kk => exact absurd rfl (hi x kk)
  | ret =>
    obtain ⟨-, -, -, -, -, -, hdraws⟩ := dataSame_execRet h
    exact hdraws
  | call nnn =>
    obtain ⟨-, -, -, -, -, -, hdraws⟩ := dataSame_execCall h
    exact hdraws
  | ldMIVx x => cases h; rw [storeRegs_eq]
  | ldVxMI x => cases h; rw [loadRegs_eq]
  | seVxKk x kk | sneVxKk x kk | seVxVy x y | sneVxVy x y | skp x | sknp x => cases h; exact skipIf_randDraws s _
  | cls | jp nnn | jpV0Nnn nnn | ldVxKk x kk | addVxKk x kk | ldVxVy x y | or x y | and x y | xor x y | addVxVy x y
  | sub x y | shr x y | subn x y | shl x y | drw x y n | ldINnn nnn | addIVx x | ldFVx x | ldBVx x | ldVxDt x
  | ldVxK x | ldDtVx x | ldStVx x => cases h; rfl

/-! ### The step and `step(rand)` -/

/-- The next step of `s` runs no RND. -/
def RunsNoRnd (s : State) : Prop := ∀ x kk, s.run = .running → decodeWord (fetchWord s) ≠ .ok (.rnd x kk)

/-- Only RND reads the random byte (R83). -/
theorem executeWith_of_ne_rnd {i : Instr} (hi : ∀ x kk, i ≠ .rnd x kk) (rand : Byte) (s : State) :
    executeWith rand i s = exec i s := by
  unfold executeWith
  split
  · exact absurd rfl (hi _ _)
  · rfl

section
variable {s t : State} {rand : Byte}

/-- A cycle that does not run RND is the same with the random byte given. -/
theorem cycle_executeWith (hno : RunsNoRnd s) (rand : Byte) : cycle (executeWith rand) s = cycle exec s := by
  cases hrun : s.run with
  | running =>
    cases hd : decodeWord (fetchWord s) with
    | ok i =>
      rw [cycle_of_decode hrun hd, cycle_of_decode hrun hd]
      exact executeWith_of_ne_rnd (fun x kk hi => hno x kk hrun (hi ▸ hd)) rand _
    | error e => rw [cycle_of_unallocated hrun hd, cycle_of_unallocated hrun hd]
  | awaitingKey x => rw [cycle_of_awaiting hrun, cycle_of_awaiting hrun]
  | faulted => rw [cycle_of_faulted hrun, cycle_of_faulted hrun]

/-- The driver's answer to a step that completes is by the RUN it leaves (R80). -/
theorem stepWith_of_cycle (h : cycle (executeWith rand) s = .next t) : stepWith rand s = .next (t, stepResult t) := by
  simp only [stepWith, h]

/-- The driver's answer in a latched fault (R80, R173). -/
theorem stepWith_of_faulted (h : s.run = .faulted) (rand : Byte) : stepWith rand s = .next (s, .fault s.cause) := by
  simp only [stepWith, cycle_of_faulted h]

/-- A step of a block that waits leaves it waiting, and the driver gets WAIT (R80, R154). -/
theorem stepWith_of_awaiting {x : Nibble} (h : s.run = .awaitingKey x) (rand : Byte) :
    stepWith rand s = .next (s, .wait) := by
  rw [stepWith_of_cycle (cycle_of_awaiting h), stepResult, h]

theorem transact_step (font : Font) {r : StepResult} (h : stepWith rand s = .next (t, r)) :
    transact font (.step rand) s = .next (t, .stepped r) := by
  simp only [transact, h]

/-- A block that has not faulted completes its step (R83, R174). -/
theorem exists_step_next (h : s.run ≠ .faulted) : ∃ t, step s = .next t := by
  cases hrun : s.run with
  | running =>
    cases hd : decodeWord (fetchWord s) with
    | ok i =>
      obtain ⟨t, ht, -⟩ := onlyCallAndRetFault i (advancePc s)
      exact ⟨t, (cycle_of_decode hrun hd).trans ht⟩
    | error e => exact ⟨_, cycle_of_unallocated hrun hd⟩
  | awaitingKey x => exact ⟨_, cycle_of_awaiting hrun⟩
  | faulted => exact absurd hrun h

/-- A step that does not run RND leaves the count of draws (log entry 3). -/
theorem randDraws_step (hno : RunsNoRnd s) (h : step s = .next t) : t.randDraws = s.randDraws := by
  obtain ⟨i, hrun, hd, hi⟩ | ⟨-, -, -, rfl⟩ | ⟨-, -, rfl⟩ := cycle_next h
  · exact randDraws_exec (s := advancePc s) (fun x kk hrnd => hno x kk hrun (hrnd ▸ hd)) hi
  · rfl
  · rfl

end

/-- Settles O40: a step that runs RND masks the same byte both times; any other step does not read it. -/
theorem stepIsStepWithTheFreeDraw : Obligations.StepIsStepWithTheFreeDraw := by
  intro s
  refine ⟨fun hrun => ?_, fun rand hrun => ⟨cycle_of_faulted hrun, stepWith_of_faulted hrun rand⟩⟩
  by_cases hrnd : ∃ x kk, s.run = .running ∧ decodeWord (fetchWord s) = .ok (.rnd x kk)
  · obtain ⟨x, kk, hrunning, hd⟩ := hrnd
    exact ⟨_, _, cycle_of_decode hrunning hd, stepWith_of_cycle (cycle_of_decode hrunning hd), rfl, fun _ => rfl,
      fun hno => absurd hd (hno x kk hrunning)⟩
  · have hno : RunsNoRnd s := fun x kk hrunning hd => hrnd ⟨x, kk, hrunning, hd⟩
    obtain ⟨t, ht⟩ := exists_step_next hrun
    exact ⟨t, t, ht, stepWith_of_cycle ((cycle_executeWith hno _).trans ht), rfl, fun h => absurd h hrnd,
      fun _ => ⟨rfl, randDraws_step hno ht⟩⟩

/-- Settles O39: both steps are the cycle of `exec`. -/
theorem onlyRndReadsTheRandomByte : Obligations.OnlyRndReadsTheRandomByte := by
  intro s a b hno
  have hcycle := cycle_executeWith (s := s) fun x kk _ => hno x kk
  rw [stepWith, stepWith, hcycle a, hcycle b]

/-! ### The word a step runs -/

/-- Settles O34: two bytes decode as their word, which is the fetched one. -/
theorem stepRunsTheDecodedInstruction : Obligations.StepRunsTheDecodedInstruction :=
  fun _ _ hrun hd => ⟨cycle_of_decode hrun (decodeBytes_pair.1 hd), pc_add_two _, rfl⟩

/-- Settles O42: the fetch finds the word placed. -/
theorem withFetchWordRunsTheWord : Obligations.WithFetchWordRunsTheWord := by
  intro s w i hs hw
  refine cycle_of_decode rfl ?_
  rw [State.withFetchWord, fetchWord_placeWord hs]
  exact decodeTableWord_eq_some.1 hw

/-- Settles O35: a word that no row selects does not decode. -/
theorem unallocatedWordIsANop : Obligations.UnallocatedWordIsANop := by
  intro s hrun hno
  cases hd : decodeWord (fetchWord s) with
  | ok i =>
    obtain ⟨r, hr, hsel⟩ := (decodes_iff_selected _).1 ⟨i, hd⟩
    exact absurd hsel (by simp [hno r hr])
  | error e => exact ⟨_, cycle_of_unallocated hrun hd, pc_add_two _, rfl⟩

/-! ### A stack fault -/

/-- A step whose instruction takes a fault after the advance leaves the state before it but for RUN and CAUSE (R84, R172),
and the driver gets the fault (R80). -/
theorem step_of_takeFault (font : Font) {s : State} (rand : Byte) {i : Instr} {c : Byte} (hrun : s.run = .running)
    (hpc : s.pc.toNat < 4096) (hd : decodeWord (fetchWord s) = .ok i) (hi : ∀ x kk, i ≠ .rnd x kk)
    (hexec : exec i (advancePc s) = .next (takeFault c (advancePc s))) :
    step s = .next { s with run := .faulted, cause := c } ∧
      transact font (.step rand) s = .next ({ s with run := .faulted, cause := c }, .stepped (.fault c)) := by
  have hstep : cycle exec s = .next { s with run := .faulted, cause := c } := by
    rw [cycle_of_decode hrun hd, hexec, takeFault_advancePc hpc]
  have hno : RunsNoRnd s := fun x kk _ hrnd => hi x kk (Except.ok.inj (hd.symm.trans hrnd))
  exact ⟨hstep, transact_step font (stepWith_of_cycle ((cycle_executeWith hno rand).trans hstep))⟩

/-- Settles O36: the stack is as deep after the advance as before it. -/
theorem stackFaultsArePrecise : Obligations.StackFaultsArePrecise := by
  intro font s rand hrun hpc
  refine ⟨fun nnn hd hfull => ?_, fun hd hempty => ?_⟩
  · exact step_of_takeFault font rand hrun hpc hd nofun (exec_call_of_full nnn hfull)
  · exact step_of_takeFault font rand hrun hpc hd nofun (exec_ret_of_empty hempty)

/-! ### The end of a key wait -/

theorem statusSame_load (bytes : List Byte) (s : State) : StatusSame s (load bytes s).2 := by
  obtain hlong | hfit := Nat.lt_or_ge 3584 bytes.length
  · rw [load_of_lt hlong]; exact ⟨rfl, rfl⟩
  · rw [load_eq hfit]; exact ⟨rfl, rfl⟩

theorem statusSame_tickDelay (s : State) : StatusSame s (tickDelay s) := by
  unfold tickDelay
  split <;> exact ⟨rfl, rfl⟩

theorem statusSame_tickSound (s : State) : StatusSame s (tickSound s) := by
  unfold tickSound
  split <;> exact ⟨rfl, rfl⟩

/-- A transaction other than `reset`, `step` and `key_down` leaves RUN and CAUSE (R188). -/
theorem statusSame_transact {font : Font} {a : Transaction} {s t : State} {r : Response}
    (h : transact font a s = .next (t, r)) (hreset : a ≠ .reset) (hstep : ∀ rand, a ≠ .step rand)
    (hkey : ∀ k, a ≠ .keyDown k) : StatusSame s t := by
  cases a with
  | reset => exact absurd rfl hreset
  | load bytes => cases h; exact statusSame_load bytes s
  | step rand => exact absurd rfl (hstep rand)
  | tickDelay => cases h; exact statusSame_tickDelay s
  | tickSound => cases h; exact statusSame_tickSound s
  | keyDown k => exact absurd rfl (hkey k)
  | keyUp k => cases h; exact ⟨rfl, rfl⟩
  | isSet x y => rw [transact_isSet_next h]; exact ⟨rfl, rfl⟩
  | diag => cases h; exact ⟨rfl, rfl⟩

/-- Settles O26: a step leaves the whole state, and the other transactions leave RUN. -/
theorem onlyKeyDownOrResetEndsTheWait : Obligations.OnlyKeyDownOrResetEndsTheWait := by
  intro s x hrun
  refine ⟨cycle_of_awaiting hrun, fun font rand => transact_step font (stepWith_of_awaiting hrun rand), ?_⟩
  intro font a t r h
  cases a with
  | reset => exact .inr (.inl rfl)
  | keyDown k => exact .inr (.inr ⟨k, rfl⟩)
  | step rand =>
    obtain ⟨r', hstep⟩ := transact_step_next h
    cases hstep.symm.trans (stepWith_of_awaiting hrun rand)
    exact .inl hrun
  | load bytes | tickDelay | tickSound | keyUp k | isSet x y | diag =>
    obtain ⟨hsame, -⟩ := statusSame_transact h nofun nofun nofun
    exact .inl (hsame.trans hrun)

end Sys2Proof.Machine

/-! ## Proofs: control transfer (spec/40_control.md) -/

namespace Sys2Proof.Machine

/-! ### Writes to PC -/

/-- A write to PC is reduced modulo 4096 (R23). -/
theorem toNat_pc_writePc (s : State) (w : Word) : (writePc s w).pc.toNat = w.toNat % 4096 := BitVec.toNat_umod

theorem toNat_zextAddr (nnn : Addr) : (zextAddr nnn).toNat = nnn.toNat :=
  BitVec.toNat_setWidth_of_le (by decide)

theorem toNat_zextByte (b : Byte) : (zextByte b).toNat = b.toNat :=
  BitVec.toNat_setWidth_of_le (by decide)

/-- A jump to a 12-bit address needs no reduction (R72). -/
theorem toNat_pc_writePc_zextAddr (s : State) (nnn : Addr) : (writePc s (zextAddr nnn)).pc.toNat = nnn.toNat := by
  rw [toNat_pc_writePc, toNat_zextAddr, Nat.mod_eq_of_lt nnn.isLt]

/-- The sum of a 12-bit address and a register fits in 16 bits, so PC is reduced only modulo 4096 (R108). -/
theorem toNat_zextAddr_add_zextByte (nnn : Addr) (b : Byte) :
    (zextAddr nnn + zextByte b).toNat = nnn.toNat + b.toNat := by
  have := nnn.isLt
  have := b.isLt
  rw [BitVec.toNat_add, toNat_zextAddr, toNat_zextByte]
  omega

/-- Settles O6: the write to PC is of a 12-bit address. -/
theorem jpGoesToItsAddress : Obligations.JpGoesToItsAddress :=
  ⟨encodedAs_row (.jp 0), fun s nnn => ⟨_, rfl, toNat_pc_writePc_zextAddr s nnn, onlyRegs_writePc s _⟩⟩

/-- Settles O10: the write to PC is of a sum below 65536. -/
theorem jpV0AddsV0 : Obligations.JpV0AddsV0 := by
  refine ⟨encodedAs_row (.jpV0Nnn 0), fun s nnn => ⟨_, rfl, ?_, onlyRegs_writePc s _⟩⟩
  rw [toNat_pc_writePc, toNat_zextAddr_add_zextByte]

/-! ### The jump to itself (R204) -/

/-- A self-jump is the word of JP to PC (R102). -/
theorem encode_jp_pc {pc : Word} (h : pc.toNat < 4096) : encode (.jp (pc.setWidth 12)) = 0x1000#16 ||| pc := by
  have hor : 4096 ||| pc.toNat = 4096 + pc.toNat := (Nat.two_pow_add_eq_or_of_lt (i := 12) h 1).symm
  apply BitVec.eq_of_toNat_eq
  rw [encode, ofNibbleAddr_toNat, BitVec.toNat_or, BitVec.toNat_setWidth, Nat.mod_eq_of_lt h]
  exact hor.symm

/-- A PC value survives the way through the address field of an instruction. -/
theorem zextAddr_setWidth {pc : Word} (h : pc.toNat < 4096) : zextAddr (pc.setWidth 12) = pc := by
  apply BitVec.eq_of_toNat_eq
  rw [toNat_zextAddr, BitVec.toNat_setWidth]
  exact Nat.mod_eq_of_lt h

/-- Writing PC back after the advance undoes it. -/
theorem writePc_advancePc {s : State} (h : s.pc.toNat < 4096) : writePc (advancePc s) s.pc = s := by
  simp only [writePc, advancePc, pc_mod_eq h]

/-- Settles O41: the step decodes JP to PC, which puts PC back to what it was before the advance. -/
theorem selfJumpChangesNothing : Obligations.SelfJumpChangesNothing := by
  rintro s hpc ⟨hrun, hword⟩
  have hd : decodeWord (fetchWord s) = .ok (.jp (s.pc.setWidth 12)) := by
    rw [hword, ← encode_jp_pc hpc, decodeWord_encode]
  calc step s = .next (writePc (advancePc s) (zextAddr (s.pc.setWidth 12))) := cycle_of_decode hrun hd
    _ = .next s := by rw [zextAddr_setWidth hpc, writePc_advancePc hpc]

/-! ### RET and CALL -/

/-- A pop from k + 1 entries reads index k, slot k + 1 of the spec (R27). -/
theorem pop_of_eq_succ {s : State} {k : Fin 16} (h : s.sp.val = k.val + 1) :
    pop s = some (s.stack[k], { s with sp := k.castSucc }) := by
  have hpos : 0 < s.sp.val := by omega
  have hk : s.sp.val - 1 = k.val := by omega
  have hsp : (⟨s.sp.val - 1, by omega⟩ : Fin 17) = k.castSucc := Fin.ext hk
  have hslot : s.stack[s.sp.val - 1] = s.stack[k.val] := getElem_congr_idx hk
  rw [pop_of_pos hpos, hsp, hslot, Fin.getElem_fin]

/-- A push on k entries writes index k, slot k + 1 of the spec (R27). -/
theorem push_of_eq {s : State} {k : Fin 16} (h : s.sp.val = k.val) (a : Word) :
    push s a = some { s with sp := k.succ, stack := s.stack.set k a } := by
  have hlt : s.sp.val < 16 := by omega
  have hsp : (⟨s.sp.val + 1, by omega⟩ : Fin 17) = k.succ := Fin.ext (congrArg (· + 1) h)
  have hstack : s.stack.set s.sp.val a = s.stack.set k.val a := by simp only [h]
  rw [push_of_lt hlt, hsp, hstack]

/-- Settles O5: a stack of k + 1 entries is popped, an empty one faults. -/
theorem retPopsTheReturnAddress : Obligations.RetPopsTheReturnAddress := by
  refine ⟨encodedAs_row .ret, fun s k hsp => ?_, fun s hempty => ?_⟩
  · exact ⟨_, exec_ret_of_pop (pop_of_eq_succ hsp), toNat_pc_writePc _ _, rfl, rfl, dataSame_of_eq rfl, rfl, rfl⟩
  · exact ⟨_, exec_ret_of_empty hempty, faultTaken_takeFault causeUnderflow s⟩

/-- Settles O7: a stack of k < 16 entries is pushed on, a full one faults. -/
theorem callPushesTheReturnAddress : Obligations.CallPushesTheReturnAddress := by
  refine ⟨encodedAs_row (.call 0), fun s nnn k hsp => ?_, fun s nnn hfull => ?_⟩
  · refine ⟨_, exec_call_of_push nnn (push_of_eq hsp s.pc), toNat_pc_writePc_zextAddr _ nnn, rfl, ?_, fun j hj => ?_,
      dataSame_of_eq rfl, rfl, rfl⟩
    · exact Vector.getElem_set_self k.isLt
    · exact Vector.getElem_set_ne k.isLt j.isLt fun hkj => hj (Fin.ext hkj.symm)
  · exact ⟨_, exec_call_of_full nnn hfull, faultTaken_takeFault causeOverflow s⟩

/-! ### Skips (R100) -/

section
variable {s : State} {c : Bool}

theorem toNat_pc_skipIf_of_true (h : c = true) : (skipIf c s).pc.toNat = (s.pc.toNat + 2) % 4096 := by
  rw [pc_skipIf, if_pos h, pc_add_two]

theorem pc_skipIf_of_false (h : c = false) : (skipIf c s).pc = s.pc := by
  rw [pc_skipIf, h]
  rfl

end

section
variable {i : Instr} {s : State} {a b : Byte}

/-- An instruction that skips when two bytes are equal (R104, R106). -/
theorem skips_of_beq (h : exec i s = .next (skipIf (a == b) s)) :
    ∃ t, exec i s = .next t ∧ OnlyRegs [] s t ∧
      (a = b → t.pc.toNat = (s.pc.toNat + 2) % 4096) ∧ (a ≠ b → t.pc = s.pc) :=
  ⟨_, h, onlyRegs_skipIf _ s, fun heq => toNat_pc_skipIf_of_true (beq_iff_eq.2 heq),
    fun hne => pc_skipIf_of_false (beq_eq_false_iff_ne.2 hne)⟩

/-- An instruction that skips when two bytes differ (R105, R107). -/
theorem skips_of_bne (h : exec i s = .next (skipIf (a != b) s)) :
    ∃ t, exec i s = .next t ∧ OnlyRegs [] s t ∧
      (a ≠ b → t.pc.toNat = (s.pc.toNat + 2) % 4096) ∧ (a = b → t.pc = s.pc) :=
  ⟨_, h, onlyRegs_skipIf _ s, fun hne => toNat_pc_skipIf_of_true (bne_iff_ne.2 hne),
    fun heq => pc_skipIf_of_false (bne_eq_false_iff_eq.2 heq)⟩

end

/-- Settles O8: a skip by the comparison of V[x] with kk. -/
theorem immediateSkipsCompareTheRegister : Obligations.ImmediateSkipsCompareTheRegister :=
  ⟨encodedAs_row (.seVxKk 0 0), encodedAs_row (.sneVxKk 0 0), fun _ _ _ => ⟨skips_of_beq rfl, skips_of_bne rfl⟩⟩

/-- Settles O9: a skip by the comparison of V[x] with V[y]. -/
theorem registerSkipsCompareTwoRegisters : Obligations.RegisterSkipsCompareTwoRegisters :=
  ⟨encodedAs_row (.seVxVy 0 0), encodedAs_row (.sneVxVy 0 0), fun _ _ _ => ⟨skips_of_beq rfl, skips_of_bne rfl⟩⟩

end Sys2Proof.Machine

/-! ## Proofs: register loads, the ALU and the random byte (spec/41_alu.md) -/

namespace Sys2Proof.Machine

/-! ### Loads, and results without a flag -/

/-- Settles O12: both are one register write. -/
theorem loadsSetTheRegister : Obligations.LoadsSetTheRegister :=
  ⟨encodedAs_row (.ldVxKk 0 0), encodedAs_row (.ldVxVy 0 0), fun s x _ _ =>
    ⟨⟨_, rfl, readV_writeV_same s x _, rfl, onlyRegs_writeV s x _⟩,
      ⟨_, rfl, readV_writeV_same s x _, rfl, onlyRegs_writeV s x _⟩⟩⟩

/-- Settles O13: one register write, of a sum that wraps at the width of a byte. -/
theorem addImmediateWrapsWithoutFlag : Obligations.AddImmediateWrapsWithoutFlag := by
  refine ⟨encodedAs_row (.addVxKk 0 0), fun s x kk => ⟨_, rfl, ?_, rfl, onlyRegs_writeV s x _⟩⟩
  rw [readV_writeV_same]
  exact BitVec.toNat_add _ _

/-- An instruction that writes V[x] and nothing else, its result given bit by bit. -/
theorem writes_bits {i : Instr} {s : State} {x : Nibble} {b : Byte} {bit : Nat → Bool}
    (h : exec i s = .next (writeV s x b)) (hb : ∀ k, b.getLsbD k = bit k) :
    ∃ t, exec i s = .next t ∧ t.pc = s.pc ∧ OnlyRegs [x] s t ∧ ∀ k < 8, (readV t x).getLsbD k = bit k := by
  refine ⟨_, h, rfl, onlyRegs_writeV s x b, fun k _ => ?_⟩
  rw [readV_writeV_same, hb]

/-- Settles O14: by the bits of an or, an and and an exclusive or. -/
theorem logicOperationsActBitwise : Obligations.LogicOperationsActBitwise :=
  ⟨encodedAs_row (.or 0 0), encodedAs_row (.and 0 0), encodedAs_row (.xor 0 0), fun _ _ _ =>
    ⟨writes_bits rfl fun _ => BitVec.getLsbD_or, writes_bits rfl fun _ => BitVec.getLsbD_and,
      writes_bits rfl fun _ => BitVec.getLsbD_xor⟩⟩

theorem exec_rnd (s : State) (x : Nibble) (kk : Byte) :
    exec (.rnd x kk) s = .next (writeV (drawRand s).2 x (Config.randByte s.randDraws &&& kk)) := rfl

/-- Settles O19: one draw and one register write, of the draw under the mask. -/
theorem rndMasksTheNextDraw : Obligations.RndMasksTheNextDraw := by
  refine ⟨encodedAs_row (.rnd 0 0), fun s x kk => ?_⟩
  obtain ⟨hregs, hi, htimers, hkeys, hpixels, hmem, hstack, hstatus, -⟩ :=
    onlyRegs_writeV (drawRand s).2 x (Config.randByte s.randDraws &&& kk)
  refine ⟨_, exec_rnd s x kk, fun b _ => ?_, rfl, rfl, hregs, hi, htimers, hkeys, hpixels, hmem, hstack, hstatus⟩
  rw [readV_writeV_same, BitVec.getLsbD_and]

/-! ### Flags as numbers (R133) -/

theorem toNat_flagByte (c : Bool) : (flagByte c).toNat = if c then 1 else 0 := by cases c <;> rfl

theorem toNat_carryFlag (a b : Byte) : (carryFlag a b).toNat = if 255 < a.toNat + b.toNat then 1 else 0 := by
  simp only [carryFlag, toNat_flagByte, decide_eq_true_eq]

theorem toNat_greaterFlag (a b : Byte) : (greaterFlag a b).toNat = if b.toNat < a.toNat then 1 else 0 := by
  simp only [greaterFlag, toNat_flagByte, decide_eq_true_eq]

theorem toNat_lowBitFlag (a : Byte) : (lowBitFlag a).toNat = a.toNat % 2 :=
  (BitVec.toNat_and _ _).trans (Nat.and_one_is_mod _)

theorem toNat_highBitFlag (a : Byte) : (highBitFlag a).toNat = a.toNat / 128 := by
  have hlt : a.toNat / 128 < 2 := by have := a.isLt; omega
  calc (highBitFlag a).toNat = (a >>> 7).toNat % 2 := toNat_lowBitFlag (a >>> 7)
    _ = a.toNat / 128 % 2 := by rw [BitVec.toNat_ushiftRight, Nat.shiftRight_eq_div_pow]
    _ = a.toNat / 128 := Nat.mod_eq_of_lt hlt

/-! ### The flag write, then the result write (R120) -/

/-- The result write leaves the flag, unless V[x] is VF. -/
theorem readV_regF_writeV_flag (s : State) {x : Nibble} (hx : x ≠ regF) (f b : Byte) :
    readV (writeV (writeV s regF f) x b) regF = f := by
  rw [readV_writeV_ne _ hx, readV_writeV_same]

/-- Settles O15: the sum is of the operands before the flag write. -/
theorem addSetsCarry : Obligations.AddSetsCarry := by
  refine ⟨encodedAs_row (.addVxVy 0 0), fun s x y => ⟨_, rfl, ?_, fun hx => ?_, rfl, onlyRegs_writeV_flag s x _ _⟩⟩
  · rw [readV_writeV_same]
    exact BitVec.toNat_add _ _
  · rw [readV_regF_writeV_flag s hx, toNat_carryFlag]

/-! ### SUB and SUBN -/

section
variable {s : State} {x a b r : Nibble}

/-- The state between the two writes of SUB and SUBN: VF holds whether V[a] > V[b] (R128, R130). -/
def compared (s : State) (a b : Nibble) : State := writeV s regF (greaterFlag (readV s a) (readV s b))

/-- What SUB (a = x) and SUBN (b = x) leave: V[x] is V[a] - V[b] as the flag write left them (R128, R130). -/
def subtracted (s : State) (x a b : Nibble) : State :=
  writeV (compared s a b) x (readV (compared s a b) a - readV (compared s a b) b)

theorem exec_sub (s : State) (x y : Nibble) : exec (.sub x y) s = .next (subtracted s x x y) := rfl

theorem exec_subn (s : State) (x y : Nibble) : exec (.subn x y) s = .next (subtracted s x y x) := rfl

theorem onlyRegs_subtracted (s : State) (x a b : Nibble) : OnlyRegs [x, regF] s (subtracted s x a b) :=
  onlyRegs_writeV_flag s x _ _

/-- An operand that is VF is read as the flag (D17). -/
theorem toNat_readV_compared_of_eq (h : r = regF) :
    (readV (compared s a b) r).toNat = if (readV s b).toNat < (readV s a).toNat then 1 else 0 := by
  rw [compared, h, readV_writeV_same, toNat_greaterFlag]

/-- Any other operand is read as it was. -/
theorem toNat_readV_compared_of_ne (h : r ≠ regF) : (readV (compared s a b) r).toNat = (readV s r).toNat := by
  rw [compared, readV_writeV_ne s h.symm]

theorem toNat_regF_subtracted (hx : x ≠ regF) :
    (readV (subtracted s x a b) regF).toNat = if (readV s b).toNat < (readV s a).toNat then 1 else 0 := by
  rw [subtracted, readV_writeV_ne _ hx, toNat_readV_compared_of_eq rfl]

/-- The difference modulo 256 of the operands, each by what the flag write left in it. -/
theorem toNat_readV_subtracted {m n : Nat} (ha : (readV (compared s a b) a).toNat = m)
    (hb : (readV (compared s a b) b).toNat = n) : (readV (subtracted s x a b) x).toNat = (m + 256 - n) % 256 := by
  have hn : n < 256 := hb ▸ (readV (compared s a b) b).isLt
  rw [subtracted, readV_writeV_same, BitVec.toNat_sub, ha, hb]
  omega

/-- A register less itself is 0, whatever the flag write left in it. -/
theorem toNat_readV_subtracted_self (h : a = b) : (readV (subtracted s x a b) x).toNat = 0 := by
  rw [subtracted, readV_writeV_same, h, BitVec.sub_self]
  rfl

end

/-- Settles O16: V[x] less V[y], each the flag where it is VF. -/
theorem subSetsStrictGreater : Obligations.SubSetsStrictGreater := by
  refine ⟨encodedAs_row (.sub 0 0), ?_⟩
  rintro s x y f rfl
  exact ⟨_, exec_sub s x y, toNat_regF_subtracted,
    fun hx hy => toNat_readV_subtracted (toNat_readV_compared_of_ne hx) (toNat_readV_compared_of_ne hy),
    fun hx hy => toNat_readV_subtracted (toNat_readV_compared_of_ne hx) (toNat_readV_compared_of_eq hy),
    fun hx hy => toNat_readV_subtracted (toNat_readV_compared_of_eq hx) (toNat_readV_compared_of_ne hy),
    toNat_readV_subtracted_self, rfl, onlyRegs_subtracted s x x y⟩

/-- Settles O17: V[y] less V[x], each the flag where it is VF. -/
theorem subnSetsStrictGreater : Obligations.SubnSetsStrictGreater := by
  refine ⟨encodedAs_row (.subn 0 0), ?_⟩
  rintro s x y f rfl
  exact ⟨_, exec_subn s x y, toNat_regF_subtracted,
    fun hx hy => toNat_readV_subtracted (toNat_readV_compared_of_ne hy) (toNat_readV_compared_of_ne hx),
    fun hx hy => toNat_readV_subtracted (toNat_readV_compared_of_eq hy) (toNat_readV_compared_of_ne hx),
    fun hx hy => toNat_readV_subtracted (toNat_readV_compared_of_ne hy) (toNat_readV_compared_of_eq hx),
    fun hxy => toNat_readV_subtracted_self hxy.symm, rfl, onlyRegs_subtracted s x y x⟩

/-! ### Shifts -/

theorem toNat_shiftRight_one (b : Byte) : (b >>> 1).toNat = b.toNat / 2 := by
  rw [BitVec.toNat_ushiftRight, Nat.shiftRight_eq_div_pow]

theorem toNat_shiftLeft_one (b : Byte) : (b <<< 1).toNat = 2 * b.toNat % 256 := by
  rw [BitVec.toNat_shiftLeft, Nat.shiftLeft_eq, Nat.mul_comm]

section
variable {s : State} {x : Nibble} {f : Byte} {shift : Byte → Byte}

/-- What a shift leaves, whose source is read after the flag write: the flag, then V[x] shifted (R129, R131). -/
def shifted (s : State) (x : Nibble) (f : Byte) (shift : Byte → Byte) : State :=
  writeV (writeV s regF f) x (shift (readV (writeV s regF f) x))

theorem exec_shr (s : State) (x y : Nibble) :
    exec (.shr x y) s = .next (shifted s x (lowBitFlag (readV s x)) (· >>> 1)) := rfl

theorem exec_shl (s : State) (x y : Nibble) :
    exec (.shl x y) s = .next (shifted s x (highBitFlag (readV s x)) (· <<< 1)) := rfl

theorem onlyRegs_shifted (s : State) (x : Nibble) (f : Byte) (shift : Byte → Byte) :
    OnlyRegs [x, regF] s (shifted s x f shift) := onlyRegs_writeV_flag s x _ _

theorem readV_shifted_of_ne (hx : x ≠ regF) : readV (shifted s x f shift) x = shift (readV s x) := by
  rw [shifted, readV_writeV_same, readV_writeV_ne s hx.symm]

theorem readV_regF_shifted_of_ne (hx : x ≠ regF) : readV (shifted s x f shift) regF = f :=
  readV_regF_writeV_flag s hx f _

/-- With V[x] = VF the flag is what is shifted (D17). -/
theorem readV_regF_shifted_of_eq (hx : x = regF) : readV (shifted s x f shift) regF = shift f := by
  subst hx
  rw [shifted, readV_writeV_same, readV_writeV_same]

end

/-- Settles O18: the shift is of V[x] as it was, or, where V[x] is VF, of the bit shifted out. -/
theorem shiftsMoveOneBitIntoVf : Obligations.ShiftsMoveOneBitIntoVf := by
  refine ⟨encodedAs_row (.shr 0 0), encodedAs_row (.shl 0 0), fun s x =>
    ⟨⟨_, exec_shr s x, rfl, onlyRegs_shifted s x _ _, fun hx => ⟨?_, ?_⟩, fun hx => ?_⟩,
      ⟨_, exec_shl s x, rfl, onlyRegs_shifted s x _ _, fun hx => ⟨?_, ?_⟩, fun hx => ?_⟩⟩⟩
  · rw [readV_shifted_of_ne hx, toNat_shiftRight_one]
  · rw [readV_regF_shifted_of_ne hx, toNat_lowBitFlag]
  · rw [readV_regF_shifted_of_eq hx, toNat_shiftRight_one, toNat_lowBitFlag]
    omega
  · rw [readV_shifted_of_ne hx, toNat_shiftLeft_one]
  · rw [readV_regF_shifted_of_ne hx, toNat_highBitFlag]
  · have hlt := (readV s regF).isLt
    rw [readV_regF_shifted_of_eq hx, toNat_shiftLeft_one, toNat_highBitFlag, hx]
    split <;> omega

end Sys2Proof.Machine

/-! ## Proofs: the framebuffer (spec/42_display.md) -/

namespace Sys2Proof.Machine

/-! ### The pixels and the collision bit of DRW (R141 to R144) -/

section
variable (s : State) (x y n : Nibble)

/-- What the blit of Dxyn answers in `s`: the framebuffer, and the collision bit (R144). -/
def drwBlit : Framebuffer × Bool := drawSprite (readV s x) (readV s y) (spriteBytes s n) s.fb

/-- DRW stores the framebuffer of its blit, then VF (R144). -/
theorem exec_drw : exec (.drw x y n) s =
    .next (writeV { s with fb := (drwBlit s x y n).1 } regF (flagByte (drwBlit s x y n).2)) := rfl

/-- The bit of a sprite byte as R141 computes it, by a shift and a mask. -/
theorem spriteBit_eq_true_iff (byte : Byte) (b : Nat) : spriteBit byte b = true ↔ byte.toNat / 2 ^ (7 - b) % 2 = 1 := by
  rw [spriteBit, BitVec.getLsbD, Nat.testBit_eq_decide_div_mod_eq, decide_eq_true_iff]

/-- The pixels that the sprite of Dxyn covers are those R144 names by I, V[x], V[y] and n. -/
theorem spriteCovers_spriteBytes_iff (px : Fin 64) (py : Fin 32) :
    SpriteCovers (readV s x) (readV s y) (spriteBytes s n) px py ↔ DrwHits s x y n px py := by
  simp only [SpriteCovers, DrwHits, getElem_spriteBytes, length_spriteBytes, spriteBit_eq_true_iff, readData, dataAddr,
    Config.memSize, wrapX, wrapY, Fin.ext_iff, exists_prop, exists_and_left]

/-- A sprite of Dxyn has no more rows than the screen, so none of them overlaps another (R141). -/
theorem length_spriteBytes_le : (spriteBytes s n).length ≤ 32 := by
  have := n.isLt
  rw [length_spriteBytes]
  omega

theorem pixel_drwBlit (px : Fin 64) (py : Fin 32) :
    (DrwHits s x y n px py → pixel (drwBlit s x y n).1 px py = !pixel s.fb px py) ∧
      (¬ DrwHits s x y n px py → pixel (drwBlit s x y n).1 px py = pixel s.fb px py) := by
  rw [← spriteCovers_spriteBytes_iff]
  exact pixel_drawSprite _ _ (length_spriteBytes_le s n) s.fb px py

theorem collision_drwBlit :
    (drwBlit s x y n).2 = true ↔ ∃ px py, DrwHits s x y n px py ∧ pixel s.fb px py = true := by
  simp only [← spriteCovers_spriteBytes_iff]
  exact collision_drawSprite _ _ (length_spriteBytes_le s n) s.fb

end

/-- Settles O21: the blit flips the pixels hit, and VF is its collision bit. -/
theorem drwFlipsTheSpriteAndReportsCollision : Obligations.DrwFlipsTheSpriteAndReportsCollision := by
  refine ⟨encodedAs_row (.drw 0 0 0), fun s x y n => ?_⟩
  obtain ⟨hregs, hi, htimers, hkeys, -, hmem, hstack, hstatus, hdraws⟩ :=
    onlyRegs_writeV { s with fb := (drwBlit s x y n).1 } regF (flagByte (drwBlit s x y n).2)
  refine ⟨_, exec_drw s x y n, pixel_drwBlit s x y n, fun hset => ?_, fun hclear => ?_, rfl, hregs, hi, htimers, hkeys,
    hmem, hstack, hstatus, hdraws⟩
  · rw [readV_writeV_same, (collision_drwBlit s x y n).2 hset]
    rfl
  · rw [readV_writeV_same, Bool.eq_false_iff.2 (mt (collision_drwBlit s x y n).1 hclear)]
    rfl

/-! ### Drawing twice, and CLS -/

/-- Settles O22: a pixel that the sprite covers is flipped twice, any other not at all. -/
theorem drawingTwiceRestoresTheScreen : Obligations.DrawingTwiceRestoresTheScreen := by
  intro fb sx sy bytes hlen x y
  have hrows : bytes.length ≤ 32 := by omega
  obtain ⟨hflip, hkeep⟩ := pixel_drawSprite sx sy hrows fb x y
  obtain ⟨hflip', hkeep'⟩ := pixel_drawSprite sx sy hrows (drawSprite sx sy bytes fb).1 x y
  by_cases hcovers : SpriteCovers sx sy bytes x y
  · rw [hflip' hcovers, hflip hcovers, Bool.not_not]
  · rw [hkeep' hcovers, hkeep hcovers]

@[simp] theorem pixel_clearFb (x : Fin 64) (y : Fin 32) : pixel clearFb x y = false := by
  simp only [pixel, clearFb, Fin.getElem_fin, Vector.getElem_replicate]

/-- Settles O20: CLS stores the clear framebuffer and writes nothing else. -/
theorem clsClearsEveryPixel : Obligations.ClsClearsEveryPixel :=
  ⟨encodedAs_row .cls, fun _ => ⟨_, rfl, pixel_clearFb, rfl, regsSame_of_v rfl, rfl, ⟨rfl, rfl⟩, fun _ => rfl,
    fun _ _ _ => rfl, ⟨rfl, rfl⟩, ⟨rfl, rfl⟩, rfl⟩⟩

end Sys2Proof.Machine

/-! ## Proofs: keys and timers (spec/43_keys_timers.md) -/

namespace Sys2Proof.Machine

/-! ### Key skips (R150 to R152) -/

/-- The key index of a byte is its low nibble (R150). -/
theorem keyIndex_of_toNat {b : Byte} {k : Nibble} (h : k.toNat = b.toNat % 16) : keyIndex b = k := by
  apply BitVec.eq_of_toNat_eq
  rw [h, keyIndex, BitVec.toNat_setWidth]

section
variable {s : State} {x k : Nibble} (hk : k.toNat = (readV s x).toNat % 16)
include hk

theorem exec_skp : exec (.skp x) s = .next (skipIf (readKey s k) s) := by
  rw [← keyIndex_of_toNat hk]
  rfl

theorem exec_sknp : exec (.sknp x) s = .next (skipIf (!readKey s k) s) := by
  rw [← keyIndex_of_toNat hk]
  rfl

end

/-- Settles O23: SKP skips by the key's bit, SKNP by its negation. -/
theorem keySkipsTestTheKeyTable : Obligations.KeySkipsTestTheKeyTable := by
  refine ⟨encodedAs_row (.skp 0), encodedAs_row (.sknp 0), fun s x k hk => ⟨?_, ?_⟩⟩
  · exact ⟨_, exec_skp hk, onlyRegs_skipIf _ s, toNat_pc_skipIf_of_true, pc_skipIf_of_false⟩
  · exact ⟨_, exec_sknp hk, onlyRegs_skipIf _ s, fun hup => toNat_pc_skipIf_of_true (congrArg not hup),
      fun hdown => pc_skipIf_of_false (congrArg not hdown)⟩

/-! ### Timer loads (R153, R155, R156) -/

/-- Nothing has changed but, perhaps, the timers. -/
def OnlyTimers (s t : State) : Prop :=
  t.pc = s.pc ∧ RegsSameBut [] s t ∧ t.i = s.i ∧ KeysSame s t ∧ PixelsSame s t ∧ MemSameBut [] s t ∧ StackSame s t ∧
    StatusSame s t ∧ t.randDraws = s.randDraws

theorem onlyTimers_of_eq {s t : State} (h : t = { s with dt := t.dt, st := t.st }) : OnlyTimers s t := by
  rw [h]
  exact ⟨rfl, regsSame_of_v rfl, rfl, fun _ => rfl, fun _ _ => rfl, fun _ _ _ => rfl, ⟨rfl, rfl⟩, ⟨rfl, rfl⟩, rfl⟩

/-- Settles O24: one register write, and one write to each timer. -/
theorem timerLoadsMoveTheByte : Obligations.TimerLoadsMoveTheByte := by
  refine ⟨encodedAs_row (.ldVxDt 0), encodedAs_row (.ldDtVx 0), encodedAs_row (.ldStVx 0), fun s x => ⟨?_, ?_, ?_⟩⟩
  · exact ⟨_, rfl, readV_writeV_same s x s.dt, rfl, onlyRegs_writeV s x s.dt⟩
  · exact ⟨writeDt s (readV s x), rfl, rfl, rfl, onlyTimers_of_eq rfl⟩
  · exact ⟨writeSt s (readV s x), rfl, rfl, rfl, onlyTimers_of_eq rfl⟩

/-! ### The key wait (R154) -/

/-- Settles O25: RUN is the only field written. -/
theorem keyWaitBegins : Obligations.KeyWaitBegins :=
  ⟨encodedAs_row (.ldVxK 0), fun _ _ => ⟨_, rfl, rfl, rfl, rfl, ⟨rfl, rfl⟩, dataSame_of_eq rfl⟩⟩

end Sys2Proof.Machine

/-! ## Proofs: the index register and memory (spec/44_index_memory.md) -/

namespace Sys2Proof.Machine

/-! ### Loads of I (R160 to R162) -/

/-- The last glyph address, 5 * 255, fits in 16 bits, so V[x] is not reduced (R162). -/
theorem toNat_glyphAddr (b : Byte) : (glyphAddr b).toNat = 5 * b.toNat := by
  have hlt := b.isLt
  rw [glyphAddr, BitVec.add_zero, BitVec.toNat_mul, toNat_zextByte, BitVec.toNat_ofNat]
  omega

/-- Settles O29: each is one write to I; only the sum can pass 16 bits. -/
theorem indexLoadsSetI : Obligations.IndexLoadsSetI := by
  refine ⟨encodedAs_row (.ldINnn 0), encodedAs_row (.addIVx 0), encodedAs_row (.ldFVx 0), fun s x nnn =>
    ⟨⟨_, rfl, toNat_zextAddr nnn, rfl⟩, ⟨_, rfl, ?_, rfl⟩, ⟨_, rfl, toNat_glyphAddr (readV s x), rfl⟩⟩⟩
  rw [writeI_i, BitVec.toNat_add, toNat_zextByte]

/-! ### The three digits of BCD (R163) -/

/-- A read through `I` after a store through `I` (R166). -/
theorem readData_writeData {s : State} (hs : memWf s.mem = true) {j k : Nat} (hj : j < 4096) (hk : k < 4096) (b : Byte) :
    readData (writeData s j b) k = if j = k then b else readData s k := by
  have haddr : dataAddr s k % 4096 = dataAddr s k := Nat.mod_mod _ _
  calc readData (writeData s j b) k = readMem (writeData s j b) (dataAddr s k) := rfl
    _ = if j = k then b else readMem s (dataAddr s k) := by
      rw [readMem_writeData hs, haddr]
      simp only [dataAddr_inj hj hk]

/-- Three bytes stored at I, I + 1 and I + 2, in that order. -/
def writeTriple (s : State) (b0 b1 b2 : Byte) : State := writeData (writeData (writeData s 0 b0) 1 b1) 2 b2

theorem exec_ldBVx (s : State) (x : Nibble) :
    exec (.ldBVx x) s = .next (writeTriple s (readV s x / 100#8) (readV s x / 10#8 % 10#8) (readV s x % 10#8)) := rfl

/-- No store of the three overwrites another: their addresses differ, wrapped or not. -/
theorem readData_writeTriple {s : State} (hs : memWf s.mem = true) (b0 b1 b2 : Byte) :
    readData (writeTriple s b0 b1 b2) 0 = b0 ∧ readData (writeTriple s b0 b1 b2) 1 = b1 ∧
      readData (writeTriple s b0 b1 b2) 2 = b2 := by
  have hs0 := memWf_writeData hs 0 b0
  have hs1 := memWf_writeData hs0 1 b1
  simp [writeTriple, readData_writeData hs, readData_writeData hs0, readData_writeData hs1]

/-- Settles O30: the three bytes that Fx33 stores are the digits of V[x]. -/
theorem bcdStoresThreeDigits : Obligations.BcdStoresThreeDigits := by
  refine ⟨encodedAs_row (.ldBVx 0), fun _ _ => rfl, fun s x hs => ?_⟩
  obtain ⟨h0, h1, h2⟩ := readData_writeTriple hs (readV s x / 100#8) (readV s x / 10#8 % 10#8) (readV s x % 10#8)
  obtain ⟨-, hmem⟩ := writesOnly_execLdBVx hs (exec_ldBVx s x)
  exact ⟨_, exec_ldBVx s x, congrArg BitVec.toNat h0, congrArg BitVec.toNat h1, congrArg BitVec.toNat h2, rfl,
    onlyMem_of_eq hmem rfl⟩

/-! ### Register blocks (R164, R165) -/

/-- Settles O31: by what a block store of x + 1 registers writes, and its frame. -/
theorem blockStoreWritesV0ToVx : Obligations.BlockStoreWritesV0ToVx := by
  refine ⟨encodedAs_row (.ldMIVx 0), fun _ _ => rfl, fun s x hs => ⟨_, rfl, fun r hr => ?_, ?_, onlyMem_storeRegs hs _⟩⟩
  · rw [readMem_storeRegs hs x.isLt (Nat.lt_succ_of_le hr), BitVec.ofNat_toNat, BitVec.setWidth_eq]
  · rw [storeRegs_eq]

/-- Settles O32: by what a block load of x + 1 registers reads, and its frame. -/
theorem blockLoadReadsV0ToVx : Obligations.BlockLoadReadsV0ToVx := by
  refine ⟨encodedAs_row (.ldVxMI 0), fun s x => ⟨_, rfl, fun r hr => ?_, fun r hr => ?_, loadRegs_eq s _⟩⟩
  · rw [readV_loadRegs s x.isLt, if_pos (Nat.lt_succ_of_le hr)]
    rfl
  · rw [readV_loadRegs s x.isLt, if_neg (Nat.not_lt.2 hr)]

end Sys2Proof.Machine

/-! ## Proofs: faults, ticks, key events and the read ports (spec/60_exceptions.md) -/

namespace Sys2Proof.Machine

/-! ### Key events (R182, R183) -/

section
variable {s : State}

theorem keyDown_of_awaiting {x : Nibble} (h : s.run = .awaitingKey x) (k : Nibble) :
    keyDown k s = { writeV (writeKey s k true) x (k.setWidth 8) with run := .running } := by
  simp only [keyDown, h]

theorem keyDown_of_not_awaiting (h : ∀ x, s.run ≠ .awaitingKey x) (k : Nibble) : keyDown k s = writeKey s k true := by
  unfold keyDown
  split
  · exact absurd ‹_› (h _)
  · rfl
  · rfl

/-- A key reads by the key table alone. -/
theorem readKey_congr {t : State} (h : t.key = s.key) (k : Nibble) : readKey t k = readKey s k := by
  simp [readKey, h]

/-- Whatever RUN is, `key_down` makes one write to the key table (R182). -/
theorem keyDown_key (k : Nibble) (s : State) : (keyDown k s).key = (writeKey s k true).key := by
  by_cases h : ∃ x, s.run = .awaitingKey x
  · obtain ⟨x, hx⟩ := h
    rw [keyDown_of_awaiting hx, writeV_key]
  · rw [keyDown_of_not_awaiting (not_exists.1 h)]

/-- A state with the key table of a write to key `k` reads that key as written and every other as before. -/
theorem readKey_of_key_eq {t : State} {k : Nibble} {b : Bool} (h : t.key = (writeKey s k b).key) :
    readKey t k = b ∧ ∀ l, l ≠ k → readKey t l = readKey s l := by
  refine ⟨?_, fun l hl => ?_⟩
  · rw [readKey_congr h, readKey_writeKey, if_pos rfl]
  · rw [readKey_congr h, readKey_writeKey, if_neg hl.symm]

end

/-- Settles O27: each event is one write to the key table, and a wait adds its register and RUN. -/
theorem keyEventsWriteTheKeyTable : Obligations.KeyEventsWriteTheKeyTable := by
  intro font s k
  obtain ⟨hup, hupOther⟩ := readKey_of_key_eq (t := keyUp k s) (s := s) (k := k) rfl
  obtain ⟨hdown, hdownOther⟩ := readKey_of_key_eq (keyDown_key k s)
  refine ⟨⟨keyUp k s, rfl, hup, hupOther, rfl⟩, ⟨keyDown k s, rfl, hdown, hdownOther, fun hrun => ?_, fun x hrun => ?_⟩⟩
  · rw [keyDown_of_not_awaiting hrun]
    rfl
  · obtain ⟨hother, -⟩ := onlyRegs_writeV (writeKey s k true) x (k.setWidth 8)
    rw [keyDown_of_awaiting hrun]
    refine ⟨?_, hother, rfl⟩
    calc (readV (writeV (writeKey s k true) x (k.setWidth 8)) x).toNat = (k.setWidth 8).toNat := by rw [readV_writeV_same]
      _ = k.toNat := BitVec.toNat_setWidth_of_le (by decide)

/-! ### A latched fault (R173) -/

/-- Settles O37: `step` answers the fault and keeps the state, `key_down` finds no wait to complete, and the other
transactions leave RUN and CAUSE. -/
theorem onlyResetLeavesAFault : Obligations.OnlyResetLeavesAFault := by
  intro s hrun
  refine ⟨cycle_of_faulted hrun, fun font rand => transact_step font (stepWith_of_faulted hrun rand), ?_⟩
  intro font a t r hreset h
  cases a with
  | reset => exact absurd rfl hreset
  | step rand =>
    obtain ⟨r', hstep⟩ := transact_step_next h
    cases hstep.symm.trans (stepWith_of_faulted hrun rand)
    exact ⟨hrun, rfl⟩
  | keyDown k =>
    cases h
    rw [keyDown_of_not_awaiting (by simp [hrun])]
    exact ⟨hrun, rfl⟩
  | load bytes | tickDelay | tickSound | keyUp k | isSet x y | diag =>
    obtain ⟨hsame, hcause⟩ := statusSame_transact h hreset nofun nofun
    exact ⟨hsame.trans hrun, hcause⟩

/-! ### Timer ticks (R180) -/

/-- What a tick makes of a timer: one less, and 0 stays 0. -/
def countedDown (b : Byte) : Byte := if 0 < b.toNat then b - 1#8 else b

theorem toNat_countedDown (b : Byte) : (countedDown b).toNat = b.toNat - 1 := by
  unfold countedDown
  split
  · next hpos => exact BitVec.toNat_sub_of_le hpos
  · omega

theorem transact_tickDelay (font : Font) (s : State) :
    transact font .tickDelay s = .next (writeDt s (countedDown s.dt), .done) := by
  simp only [transact, tickDelay, countedDown]
  split <;> rfl

theorem transact_tickSound (font : Font) (s : State) :
    transact font .tickSound s = .next (writeSt s (countedDown s.st), .done) := by
  simp only [transact, tickSound, countedDown]
  split <;> rfl

/-- Settles O28: each tick is one write of its timer, counted down. -/
theorem ticksCountDownToZero : Obligations.TicksCountDownToZero := fun font s =>
  ⟨⟨_, transact_tickDelay font s, toNat_countedDown s.dt, rfl⟩, ⟨_, transact_tickSound font s, toNat_countedDown s.st, rfl⟩⟩

/-! ### The read ports (R185, R186) -/

theorem isSet_of_lt (s : State) (x : Fin 64) (y : Fin 32) : isSet x.val y.val s = some (pixel s.fb x y) :=
  dif_pos ⟨x.isLt, y.isLt⟩

theorem isSet_of_le {x y : Nat} (h : 64 ≤ x ∨ 32 ≤ y) (s : State) : isSet x y s = none :=
  dif_neg (by omega)

/-- SP is at most 16, so the port's byte shows it as it is (R25, R186). -/
theorem toNat_diag_sp (s : State) : (diag s).sp.toNat = s.sp.val := by
  have hsp := s.sp.isLt
  rw [diag, BitVec.toNat_ofNat]
  omega

/-- Settles O46: `is_set` answers exactly on the screen, and `diag` shows each register as it is. -/
theorem readPortsWriteNothing : Obligations.ReadPortsWriteNothing := by
  intro font s
  refine ⟨fun x y => ?_, fun x y hout => ?_, ⟨diag s, rfl, rfl, rfl, rfl, toNat_diag_sp s, rfl, rfl, rfl, rfl⟩⟩
  · simp only [transact, isSet_of_lt]
  · simp only [transact, isSet_of_le hout]

end Sys2Proof.Machine

/-! ## Proofs: reset and the end of a run (spec/70_reset_and_hazards.md) -/

namespace Sys2Proof.Machine

/-! ### The first end of a run (R204) -/

/-- The first `m` transactions of the run complete and do not lead to an end. -/
def GoesOnAfter (font : Font) (ts : List Transaction) (s : State) (m : Nat) : Prop :=
  ∃ u, transactAll font (ts.take m) s = .next u ∧ ¬ AtEnd (ts.drop m) u

/-- The first `n` transactions of the run lead to the end `t`, and the run goes on after any fewer. -/
def FirstEndAfter (font : Font) (ts : List Transaction) (s : State) (n : Nat) (t : State) : Prop :=
  transactAll font (ts.take n) s = .next t ∧ AtEnd (ts.drop n) t ∧ ∀ m < n, GoesOnAfter font ts s m

section
variable {font : Font} {ts rest : List Transaction} {a : Transaction} {s t u : State} {r : Response} {n k : Nat}

theorem firstEndAfter_zero (h : AtEnd ts s) : FirstEndAfter font ts s 0 s := ⟨rfl, h, nofun⟩

/-- A run that goes on to its next transaction goes on after one more transaction wherever the rest of it does. -/
theorem goesOnAfter_cons_succ (h : transact font a s = .next (u, r)) :
    GoesOnAfter font (a :: rest) s (n + 1) ↔ GoesOnAfter font rest u n := by
  simp only [GoesOnAfter, List.take_succ_cons, List.drop_succ_cons, transactAll_cons h]

/-- The first end of the rest of a run is the first end of the run when the run does not begin at one. -/
theorem FirstEndAfter.cons (hs : ¬ AtEnd (a :: rest) s) (hu : transact font a s = .next (u, r))
    (h : FirstEndAfter font rest u n t) : FirstEndAfter font (a :: rest) s (n + 1) t := by
  obtain ⟨hrun, hend, hbefore⟩ := h
  refine ⟨(transactAll_cons hu).trans hrun, hend, fun m hm => ?_⟩
  cases m with
  | zero => exact ⟨s, rfl, hs⟩
  | succ m => exact (goesOnAfter_cons_succ hu).2 (hbefore m (by omega))

/-- Where the run goes on it is not at an end. -/
theorem GoesOnAfter.not_firstEndAfter (h : GoesOnAfter font ts s n) : ¬ FirstEndAfter font ts s n t := by
  rintro ⟨hrun, hend, -⟩
  obtain ⟨u, hu, hno⟩ := h
  cases hu.symm.trans hrun
  exact hno hend

/-- A run has at most one first end: after the fewer transactions of two, it would also go on. -/
theorem FirstEndAfter.unique (ht : FirstEndAfter font ts s n t) (hu : FirstEndAfter font ts s k u) : t = u := by
  have ⟨htrun, _, htbefore⟩ := ht
  have ⟨hurun, _, hubefore⟩ := hu
  obtain hlt | rfl | hlt := Nat.lt_trichotomy n k
  · exact absurd ht (hubefore n hlt).not_firstEndAfter
  · cases htrun.symm.trans hurun
    rfl
  · exact absurd hu (htbefore k hlt).not_firstEndAfter

/-- What `endOfRun` gives is a first end: along its recursion. -/
theorem exists_firstEndAfter (h : endOfRun font ts s = some t) : ∃ n, FirstEndAfter font ts s n t := by
  fun_induction endOfRun font ts s with
  | case1 s hs | case3 s a rest hs => cases h; exact ⟨0, firstEndAfter_zero hs⟩
  | case4 s a rest hs u r hu ih =>
    obtain ⟨n, hn⟩ := ih h
    exact ⟨n + 1, hn.cons hs hu⟩
  | case2 | case5 | case6 => cases h

/-- A run that comes to an end has one that `endOfRun` gives: its own start, or an end of the rest. -/
theorem exists_endOfRun (hrun : transactAll font (ts.take n) s = .next t) (hend : AtEnd (ts.drop n) t) :
    ∃ u, endOfRun font ts s = some u := by
  induction ts generalizing s n with
  | nil =>
    rw [List.take_nil] at hrun
    rw [List.drop_nil] at hend
    cases hrun
    exact ⟨_, endOfRun_of_atEnd font hend⟩
  | cons a rest ih =>
    by_cases hs : AtEnd (a :: rest) s
    · exact ⟨s, endOfRun_of_atEnd font hs⟩
    cases n with
    | zero => cases hrun; exact absurd hend hs
    | succ n =>
      obtain ⟨u, r, hu, hrest⟩ := transactAll_cons_next hrun
      rw [endOfRun_cons hs hu]
      exact ih hrest hend

end

/-- Settles O52: `endOfRun` gives a first end, of which there is one only, and gives one wherever the run has an end. -/
theorem runEndsAtItsFirstEndState : Obligations.RunEndsAtItsFirstEndState := by
  intro font ts s
  refine ⟨fun t => ⟨exists_firstEndAfter, ?_⟩, fun hnone n t hrun hend => ?_, fun hnever => ?_⟩
  · rintro ⟨n, hfirst : FirstEndAfter font ts s n t⟩
    have ⟨hrun, hend, _⟩ := hfirst
    obtain ⟨u, hu⟩ := exists_endOfRun hrun hend
    obtain ⟨k, hk⟩ := exists_firstEndAfter hu
    rw [hu, hk.unique hfirst]
  · obtain ⟨u, hu⟩ := exists_endOfRun hrun hend
    cases hnone.symm.trans hu
  · refine Option.eq_none_iff_forall_ne_some.2 fun t ht => ?_
    obtain ⟨n, hrun, hend, -⟩ := exists_firstEndAfter ht
    exact hnever n t hrun hend

/-! ### After the end of a run (R204) -/

/-- The states differ in the timers and the keys alone. -/
def OnlyTimersAndKeys (s t : State) : Prop := t = { s with dt := t.dt, st := t.st, key := t.key }

section
variable {font : Font} {rest : List Transaction} {a : Transaction} {s t u : State} {r : Response}

theorem OnlyTimersAndKeys.trans (hst : OnlyTimersAndKeys s t) (htu : OnlyTimersAndKeys t u) : OnlyTimersAndKeys s u :=
  Eq.trans htu (by rw [hst])

/-- A jump to the address it stands at is not RND. -/
theorem SelfJump.runsNoRnd (h : SelfJump s) (hpc : s.pc.toNat < 4096) : RunsNoRnd s := by
  obtain ⟨-, hword⟩ := h
  intro x kk _ hd
  rw [hword, ← encode_jp_pc hpc, decodeWord_encode] at hd
  cases hd

/-- In each of R204's conditions a step completes and changes nothing: the self-jump goes to itself (R102), a fault is
latched (R173), and a wait waits on (R154). -/
theorem AtEnd.exists_transact_step (h : AtEnd rest s) (hpc : s.pc.toNat < 4096) (font : Font) (rand : Byte) :
    ∃ r, transact font (.step rand) s = .next (s, r) := by
  obtain hjump | hfault | ⟨⟨x, hwait⟩, -⟩ := h
  · have hcycle : cycle (executeWith rand) s = .next s :=
      (cycle_executeWith (hjump.runsNoRnd hpc) rand).trans (selfJumpChangesNothing s hpc hjump)
    exact ⟨_, transact_step font (stepWith_of_cycle hcycle)⟩
  · exact ⟨_, transact_step font (stepWith_of_faulted hfault rand)⟩
  · exact ⟨_, transact_step font (stepWith_of_awaiting hwait rand)⟩

/-- So any number of steps changes nothing. -/
theorem AtEnd.transactAll_steps (h : AtEnd rest s) (hpc : s.pc.toNat < 4096) (font : Font) (rands : List Byte) :
    transactAll font (rands.map .step) s = .next s := by
  induction rands with
  | nil => rfl
  | cons rand rands ih =>
    obtain ⟨r, hr⟩ := h.exists_transact_step hpc font rand
    exact (transactAll_cons hr).trans ih

/-- R204's conditions read PC, memory and RUN, and a wait that is in vain stays so as transactions are used up. -/
theorem AtEnd.of_onlyTimersAndKeys (h : AtEnd (a :: rest) s) (hst : OnlyTimersAndKeys s t) : AtEnd rest t := by
  rw [hst]
  obtain hjump | hfault | ⟨hwait, hvain⟩ := h
  · exact .inl hjump
  · exact .inr (.inl hfault)
  · exact .inr (.inr ⟨hwait, fun k hk => hvain k (List.mem_cons_of_mem _ hk)⟩)

/-- A key that is pressed at an end completes no wait, since there is none in vain with a `key_down` to come. -/
theorem AtEnd.not_awaiting {k : Nibble} (h : AtEnd (.keyDown k :: rest) s) (x : Nibble) : s.run ≠ .awaitingKey x := by
  obtain ⟨hrun, -⟩ | hfault | ⟨-, hvain⟩ := h
  · simp [hrun]
  · simp [hfault]
  · exact absurd List.mem_cons_self (hvain k)

/-- At an end, a transaction other than `load` and `reset` writes at most a timer or a key (R154, R173, R180, R182). -/
theorem AtEnd.onlyTimersAndKeys_transact (h : AtEnd (a :: rest) s) (hpc : s.pc.toNat < 4096) (hreset : a ≠ .reset)
    (hload : ∀ bytes, a ≠ .load bytes) (ht : transact font a s = .next (t, r)) : OnlyTimersAndKeys s t := by
  cases a with
  | reset => exact absurd rfl hreset
  | load bytes => exact absurd rfl (hload bytes)
  | step rand =>
    obtain ⟨r', hr'⟩ := h.exists_transact_step hpc font rand
    cases hr'.symm.trans ht
    rfl
  | tickDelay => cases (transact_tickDelay font s).symm.trans ht; rfl
  | tickSound => cases (transact_tickSound font s).symm.trans ht; rfl
  | keyDown k =>
    cases ht
    rw [keyDown_of_not_awaiting h.not_awaiting]
    rfl
  | keyUp k => cases ht; rfl
  | isSet x y => rw [transact_isSet_next ht]; rfl
  | diag => cases ht; rfl

/-- So a run without `load` and `reset` from an end stays at an end: induction over its transactions. -/
theorem AtEnd.onlyTimersAndKeys_transactAll (h : AtEnd rest s) (hpc : s.pc.toNat < 4096)
    (hallowed : ∀ a ∈ rest, a ≠ .reset ∧ ∀ bytes, a ≠ .load bytes) (ht : transactAll font rest s = .next t) :
    OnlyTimersAndKeys s t ∧ AtEnd [] t := by
  induction rest generalizing s with
  | nil => cases ht; exact ⟨rfl, h⟩
  | cons a rest ih =>
    obtain ⟨⟨hreset, hload⟩, hallowed'⟩ := List.forall_mem_cons.1 hallowed
    obtain ⟨u, r, hu, hrest⟩ := transactAll_cons_next ht
    have hsu : OnlyTimersAndKeys s u := h.onlyTimersAndKeys_transact hpc hreset hload hu
    have hpc' : u.pc.toNat < 4096 := by rw [hsu]; exact hpc
    obtain ⟨hut, hend⟩ := ih (h.of_onlyTimersAndKeys hsu) hpc' hallowed' hrest
    exact ⟨hsu.trans hut, hend⟩

end

/-- Settles O53: steps at an end change nothing, and the other transactions keep the run at one. -/
theorem nothingButTicksAndKeysAfterTheEnd : Obligations.NothingButTicksAndKeysAfterTheEnd := fun font _ _ hpc hend =>
  ⟨hend.transactAll_steps hpc font, fun _ hallowed ht => hend.onlyTimersAndKeys_transactAll hpc hallowed ht⟩

/-! ### Reset (R200) -/

/-- `reset` gives the reset state of R35 with the machine's own font in memory, and keeps the count of draws. -/
theorem transact_reset (font : Font) (s : State) : transact font .reset s =
    .next ({ State.reset with mem := (resetWith font).mem, randDraws := s.randDraws }, .done) := by
  rw [transact, doReset, resetWith, writeBytes_eq]

/-- The font is the first 80 bytes of the memory it is written to (R57). -/
theorem readMem_resetWith_of_lt (font : Font) {a : Nat} (ha : a < 80) : readMem (resetWith font) a = font[a] := by
  have hlen : font.toList.length = 80 := font.length_toList
  rw [resetWith, readMem_writeBytes rfl (by omega) (by omega), dif_pos (by omega)]
  rfl

/-- The reset contents after the font are 0 (R56, D10). -/
theorem resetByte_of_le {a : Nat} (ha : 80 ≤ a) : resetByte a = 0#8 := by
  have hnone : fontDefaultBytes[a]? = none := List.getElem?_eq_none ha
  rw [resetByte, List.getD_eq_getElem?_getD, hnone, Option.getD_none]

/-- After the font memory is 0 (R56, D10). -/
theorem readMem_resetWith_of_le (font : Font) {a : Nat} (hge : 80 ≤ a) (hlt : a < 4096) :
    readMem (resetWith font) a = 0#8 := by
  have hlen : font.toList.length = 80 := font.length_toList
  rw [resetWith, readMem_writeBytes rfl (by omega) hlt, dif_neg (by omega), readMem_reset hlt, resetByte_of_le hge]

/-- Settles O43: the registers are those of the reset state, and memory is the font and 0 after it. -/
theorem resetSetsEveryComponent : Obligations.ResetSetsEveryComponent := fun font s =>
  ⟨_, transact_reset font s, fun _ => Vector.getElem_replicate _, rfl, rfl, rfl, fun _ => Vector.getElem_replicate _, rfl,
    rfl, pixel_clearFb, fun _ => Vector.getElem_replicate _, rfl, rfl, fun a => readMem_resetWith_of_lt font a.isLt,
    fun _ hge hlt => readMem_resetWith_of_le font hge hlt⟩

end Sys2Proof.Machine
